-- ==== Sys2Proof/Word.lean ====
section
/-! DEFINITION. The widths BSE computes with: the request word, the cell value and the level of a line. -/

namespace Sys2Proof

/-- A request word or run data word: 32 bits, one parallel transfer, no byte order (R55, R80). -/
abbrev Word := BitVec 32

/-- The value of one cell, or one nibble on the wire: 4 bits (R21). -/
abbrev Nibble := BitVec 4

/-- The level of a line, or one bit on the wire: `true` is 1 (R10, R25). -/
abbrev Level := Bool

end Sys2Proof
end

