-- ==== Sys2Proof/Config.lean ====
section
/-! DEFINITION. The parameters of R5: those the source fixes are constants, those marked OPEN are opaque constants without a body, so that nothing is provable that holds for one value of them only (log 5). -/

namespace Sys2Proof.Config

/-- NUM_CELLS (R5). -/
abbrev numCells : Nat := 40
/-- CELL_BITS (R5). -/
abbrev cellBits : Nat := 4
/-- NUM_SEGMENTS, `NUM_CELLS × CELL_BITS` (R5). -/
abbrev numSegments : Nat := 160
/-- ADDR_BITS: the address field on the wire (R5). -/
abbrev addrBits : Nat := 6
/-- CMD_BITS: the command field on the wire (R5). -/
abbrev cmdBits : Nat := 8
/-- DATA_BITS: one nibble on the wire (R5). -/
abbrev dataBits : Nat := 4
/-- REQ_BITS: a request word (R5). -/
abbrev reqBits : Nat := 32
/-- RUN_COUNT_BITS: the nibble count of a run request (R5). -/
abbrev runCountBits : Nat := 16
/-- INDEX_BITS: the segment index of SETSEG (R5). -/
abbrev indexBits : Nat := 12

/-- OPEN: HOLD_CYCLES less one. -/
opaque holdCyclesPred : Nat
/-- HOLD_CYCLES: the clock cycles of one hold, at least 1 (R5, R34). -/
def holdCycles : Nat := holdCyclesPred + 1

/-- OPEN: STARTUP_CYCLES less one. -/
opaque startupCyclesPred : Nat
/-- STARTUP_CYCLES: the clock cycles of T_STARTUP, at least 1 (R5, R201). -/
def startupCycles : Nat := startupCyclesPred + 1

/-- OPEN: how far T_HOLD lies above its bound, in µs. -/
opaque tHoldExcess : NNRat
/-- T_HOLD in µs: at least 4, the reference value (R5, R116, C1). -/
def tHold : NNRat := 4 + tHoldExcess

/-- OPEN: how far the time HOLD_CYCLES cycles take lies above T_HOLD, in µs. -/
opaque holdSlack : NNRat
/-- F_CLK in MHz: the clock at which HOLD_CYCLES cycles take at least T_HOLD, so HOLD_CYCLES ≥ ⌈T_HOLD × F_CLK⌉ (R5, R116). -/
def fClk : NNRat := (holdCycles : NNRat) / (tHold + holdSlack)

/-- T_STARTUP in µs: the time STARTUP_CYCLES cycles take (R5). -/
def tStartup : NNRat := (startupCycles : NNRat) / fClk

/-- OPEN: INIT_CMDS, the four bring-up command bytes of `initialize()`, in its order (R5, R97). -/
opaque initCmds : Fin 4 → BitVec 8

end Sys2Proof.Config
end

