-- ==== Sys2Proof/Syntax.lean ====
section
/-! DEFINITION. One constructor per row of spec/opcode_table.json: six operations at the request port, the eleven reserved OP values, and the three wire frames. A request keeps the raw fields `A` and `D` of R80, ignored bits and all; which bits an operation uses is decided in Machine/Operands.lean. -/

namespace Sys2Proof

/-- The rows of the opcode table. -/
inductive Instr where
  /-- `CMD`: OP 0x1, send a command frame (R112). -/
  | cmd (a : BitVec 12) (d : BitVec 16)
  /-- `WRCELL`: OP 0x2, write one cell (R113). -/
  | wrcell (a : BitVec 12) (d : BitVec 16)
  /-- `WRRUN`: OP 0x3, open a run frame (R114). -/
  | wrrun (a : BitVec 12) (d : BitVec 16)
  /-- `NIB`: any word accepted inside an open run (R115). -/
  | nib (w : Word)
  /-- `SETSEG`: OP 0x4, set or clear one segment (R140). -/
  | setseg (a : BitVec 12) (d : BitVec 16)
  /-- `CLRALL`: OP 0x5, blank every cell (R141). -/
  | clrall (a : BitVec 12) (d : BitVec 16)
  /-- reserved OP 0x0 (R85, R171). -/
  | reserved0 (a : BitVec 12) (d : BitVec 16)
  /-- reserved OP 0x6 (R85, R171). -/
  | reserved6 (a : BitVec 12) (d : BitVec 16)
  /-- reserved OP 0x7 (R85, R171). -/
  | reserved7 (a : BitVec 12) (d : BitVec 16)
  /-- reserved OP 0x8 (R85, R171). -/
  | reserved8 (a : BitVec 12) (d : BitVec 16)
  /-- reserved OP 0x9 (R85, R171). -/
  | reserved9 (a : BitVec 12) (d : BitVec 16)
  /-- reserved OP 0xA (R85, R171). -/
  | reservedA (a : BitVec 12) (d : BitVec 16)
  /-- reserved OP 0xB (R85, R171). -/
  | reservedB (a : BitVec 12) (d : BitVec 16)
  /-- reserved OP 0xC (R85, R171). -/
  | reservedC (a : BitVec 12) (d : BitVec 16)
  /-- reserved OP 0xD (R85, R171). -/
  | reservedD (a : BitVec 12) (d : BitVec 16)
  /-- reserved OP 0xE (R85, R171). -/
  | reservedE (a : BitVec 12) (d : BitVec 16)
  /-- reserved OP 0xF (R85, R171). -/
  | reservedF (a : BitVec 12) (d : BitVec 16)
  /-- `wire: command frame`, with its command byte (R87). -/
  | wireCommandFrame (c : BitVec 8)
  /-- `wire: write frame`, with its address and data (R88). -/
  | wireWriteFrame (a : BitVec 6) (d : Nibble)
  /-- `wire: run frame`, with its nibbles in transmission order (R89). -/
  | wireRunFrame (ds : List Nibble)
  deriving DecidableEq, Repr

end Sys2Proof
end

