-- ==== Sys2Proof/WellFormed.lean ====
section
/-! DEFINITION. Which terms of Instr are instructions. Every value of every request field is accepted (R56), so the widths in the types of the fields are all there is to check for a request; a run frame carries at most as many nibbles as the run count can say (R5, R210). -/

namespace Sys2Proof

/-- The number of nibbles fits the run count: 0..65535 (R82, R210). -/
def runLengthFits (ds : List Nibble) : Bool := ds.length < 2 ^ Config.runCountBits

/-- An instruction BSE can be asked for, or a frame it can send. -/
def WellFormed : Instr → Bool
  | .cmd _ _ => true
  | .wrcell _ _ => true
  | .wrrun _ _ => true
  | .nib _ => true
  | .setseg _ _ => true
  | .clrall _ _ => true
  | .reserved0 _ _ => true
  | .reserved6 _ _ => true
  | .reserved7 _ _ => true
  | .reserved8 _ _ => true
  | .reserved9 _ _ => true
  | .reservedA _ _ => true
  | .reservedB _ _ => true
  | .reservedC _ _ => true
  | .reservedD _ _ => true
  | .reservedE _ _ => true
  | .reservedF _ _ => true
  | .wireCommandFrame _ => true
  | .wireWriteFrame _ _ => true
  | .wireRunFrame ds => runLengthFits ds

end Sys2Proof
end

