-- ==== Sys2Proof/Decode.lean ====
section
/-! DEFINITION. The two encodings of BSE and their decoders: request words (R80-R86), read with the run context (R83, R84), and wire frames (R87-R92). Both decoders are total. -/

namespace Sys2Proof

/-! ### Bit lists -/

/-- `mask_w(v)`: the low `w` bits of `v`, every higher bit dropped (R7). -/
def maskTo {n : Nat} (w : Nat) (v : BitVec n) : BitVec w := v.setWidth w

/-- `bits(v, w)`: the `w` low bits of `v`, most significant first (R9). -/
def bits (v : Nat) : Nat → List Level
  | 0 => []
  | w + 1 => v.testBit w :: bits v w

/-- The number a bit list spells, most significant bit first: the inverse of `bits` (R9). -/
def ofBits (bs : List Level) : Nat := bs.foldl (fun n b => 2 * n + b.toNat) 0

/-- PREFIX_CMD, in transmission order (R5, R90). -/
def prefixCmd : List Level := [true, false, false]

/-- PREFIX_WR, in transmission order (R5, R90). -/
def prefixWr : List Level := [true, false, true]

/-! ### Request words -/

/-- `W.OP = W[31:28]` (R12, R80). -/
def opField (w : Word) : BitVec 4 := w.extractLsb' 28 4

/-- `W.A = W[27:16]` (R12, R80). -/
def aField (w : Word) : BitVec 12 := w.extractLsb' 16 12

/-- `W.D = W[15:0]` (R12, R80). -/
def dField (w : Word) : BitVec 16 := w.extractLsb' 0 16

/-- The operation map of R81 for a word accepted outside a run. OP has 4 bits, so after 0..14 the last case is 0xF. -/
def decodeRequest (w : Word) : Instr :=
  match (opField w).toNat with
  | 0x0 => .reserved0 (aField w) (dField w)
  | 0x1 => .cmd (aField w) (dField w)
  | 0x2 => .wrcell (aField w) (dField w)
  | 0x3 => .wrrun (aField w) (dField w)
  | 0x4 => .setseg (aField w) (dField w)
  | 0x5 => .clrall (aField w) (dField w)
  | 0x6 => .reserved6 (aField w) (dField w)
  | 0x7 => .reserved7 (aField w) (dField w)
  | 0x8 => .reserved8 (aField w) (dField w)
  | 0x9 => .reserved9 (aField w) (dField w)
  | 0xA => .reservedA (aField w) (dField w)
  | 0xB => .reservedB (aField w) (dField w)
  | 0xC => .reservedC (aField w) (dField w)
  | 0xD => .reservedD (aField w) (dField w)
  | 0xE => .reservedE (aField w) (dField w)
  | _ => .reservedF (aField w) (dField w)

/-- Word classification (R83): while `run_left > 0` every word is a data word, whatever its OP bits hold. -/
def classify (runLeft : BitVec 16) (w : Word) : Instr :=
  if 0 < runLeft.toNat then .nib w else decodeRequest w

/-- How many data words are still owed after a word, as a stream decoder tracks it (R84). -/
def owedAfter (owed : BitVec 16) (w : Word) : BitVec 16 :=
  match classify owed w with
  | .nib _ => owed - 1
  | .wrrun _ d => d
  | _ => owed

/-- The instructions of a word stream, `owed` data words being owed to an open run at its start (R84). -/
def decodeStream (owed : BitVec 16) : List Word → List Instr
  | [] => []
  | w :: ws => classify owed w :: decodeStream (owedAfter owed w) ws

/-! ### Wire frames -/

/-- `cmdBits(c)` (R87); the don't-care bit is sent as 0 (R91). -/
def cmdBits (c : BitVec 8) : List Level := prefixCmd ++ bits c.toNat Config.cmdBits ++ [false]

/-- `wrBits(a, d)` (R88). -/
def wrBits (a : BitVec 6) (d : Nibble) : List Level :=
  prefixWr ++ bits a.toNat Config.addrBits ++ bits d.toNat Config.dataBits

/-- `runHdrBits`: the header of a run frame, start address 0 (R89). -/
def runHdrBits : List Level := prefixWr ++ bits 0 Config.addrBits

/-- `bits(d, 4)` of one nibble of a run (R89). -/
def nibBits (d : Nibble) : List Level := bits d.toNat Config.dataBits

/-- `runBits(ds)` (R89). -/
def runBits (ds : List Nibble) : List Level := runHdrBits ++ ds.flatMap nibBits

/-- What R92 reads from a frame. The wire does not tell a write frame from a run frame of one nibble, so there is one kind for both. -/
inductive WireFrame where
  /-- A command frame with its command byte. -/
  | command (cmd : BitVec 8)
  /-- A write or run frame with its address and nibbles. -/
  | writeRun (addr : BitVec 6) (nibbles : List Nibble)
  deriving DecidableEq, Repr

/-- Why a bit list is rejected. -/
inductive WireReject where
  /-- "not a frame BSE emits" (R92). -/
  | notAFrameOfBse
  deriving DecidableEq, Repr

/-- Successive 4-bit groups, each most significant bit first; fewer than four bits at the end are no group. -/
def nibblesOf : List Level → List Nibble
  | b3 :: b2 :: b1 :: b0 :: rest => BitVec.ofNat 4 (ofBits [b3, b2, b1, b0]) :: nibblesOf rest
  | _ => []

/-- Decoding a wire frame (R92). -/
def decodeWire (bs : List Level) : Except WireReject WireFrame :=
  if bs.length = 12 ∧ bs.take 3 = prefixCmd then
    .ok (.command (BitVec.ofNat 8 (ofBits ((bs.drop 3).take 8))))
  else if bs.take 3 = prefixWr ∧ 9 ≤ bs.length ∧ (bs.length - 9) % 4 = 0 then
    .ok (.writeRun (BitVec.ofNat 6 (ofBits ((bs.drop 3).take 6))) (nibblesOf (bs.drop 9)))
  else .error .notAFrameOfBse

/-- The row of the opcode table a decoded frame is: one nibble makes a write frame, another number of nibbles at address 0 a run frame; BSE sends nothing else (R88-R90, R92). -/
def WireFrame.row : WireFrame → Option Instr
  | .command c => some (.wireCommandFrame c)
  | .writeRun a [d] => some (.wireWriteFrame a d)
  | .writeRun a ds => if a = 0 then some (.wireRunFrame ds) else none

/-! ### The encoder -/

/-- An instruction's encoding: a word at the request port or a bit list on the wire. -/
inductive Encoding where
  /-- A request word or data word. -/
  | word (w : Word)
  /-- The bits of a frame, in transmission order. -/
  | frame (bs : List Level)
  deriving DecidableEq, Repr

/-- A request word from its three fields (R80). -/
def packWord (op : BitVec 4) (a : BitVec 12) (d : BitVec 16) : Word := op ++ a ++ d

/-- The encoding of every row (R80, R81, R87-R89). -/
def encode : Instr → Encoding
  | .cmd a d => .word (packWord 0x1 a d)
  | .wrcell a d => .word (packWord 0x2 a d)
  | .wrrun a d => .word (packWord 0x3 a d)
  | .nib w => .word w
  | .setseg a d => .word (packWord 0x4 a d)
  | .clrall a d => .word (packWord 0x5 a d)
  | .reserved0 a d => .word (packWord 0x0 a d)
  | .reserved6 a d => .word (packWord 0x6 a d)
  | .reserved7 a d => .word (packWord 0x7 a d)
  | .reserved8 a d => .word (packWord 0x8 a d)
  | .reserved9 a d => .word (packWord 0x9 a d)
  | .reservedA a d => .word (packWord 0xA a d)
  | .reservedB a d => .word (packWord 0xB a d)
  | .reservedC a d => .word (packWord 0xC a d)
  | .reservedD a d => .word (packWord 0xD a d)
  | .reservedE a d => .word (packWord 0xE a d)
  | .reservedF a d => .word (packWord 0xF a d)
  | .wireCommandFrame c => .frame (cmdBits c)
  | .wireWriteFrame a d => .frame (wrBits a d)
  | .wireRunFrame ds => .frame (runBits ds)

/-- The table's view of the decoders. A number of bits a frame can have (12, 13, 9 + 4n) that spells a frame is read as one, first bit sent = most significant; everything else is a request word, the bits above `nbits` zero. No multiple of 8 bits is a frame's length, so whole bytes are always a request word. -/
def decodeTableWord (nbits w : Nat) : Option Instr :=
  match decodeWire (bits w nbits) with
  | .ok f => f.row
  | .error _ => some (decodeRequest (BitVec.ofNat 32 (w % 2 ^ nbits)))

end Sys2Proof
end

