-- ==== Sys2Proof/Machine/State.lean ====
section
/-! DEFINITION. The state of BSE (R20) with its reset values (R36), the wire events it sends (R10), what the host does at the port (R37, R38, D39), and the reasons a step can stop. -/

namespace Sys2Proof.Machine

/-- The three output lines (R25). -/
inductive Line where
  /-- chip-select, active low -/
  | cs
  /-- strobe -/
  | stb
  /-- data -/
  | dat
  deriving DecidableEq, Repr

/-- Wire events (R10). -/
inductive WireEvent where
  /-- `Set(L, b)`: drive line `L` to level `b`. -/
  | set (l : Line) (b : Level)
  /-- `Hold`: keep every line at its level for at least T_HOLD. -/
  | hold
  deriving DecidableEq, Repr

/-- What the host does at the request port and the reset pin, one entry after the other (R37, R38, R205; DESIGN CHOICE, log 1). -/
inductive HostAct where
  /-- Offers a word (`req_valid = 1`) and keeps offering it until it is accepted (R205). -/
  | offer (w : Word)
  /-- Offers nothing for one cycle (`req_valid = 0`). -/
  | idle
  /-- Holds `rst_n = 0` for one cycle (R200). -/
  | reset
  deriving DecidableEq, Repr

/-- The whole state of BSE (R20), and three fields of the model's own: the host's script, which is BSE's input, and the events performed, before the last reset and since, which are BSE's observation. -/
structure State where
  /-- `sh[0..39]`, the shadow cells (R21). -/
  sh : Vector Nibble Config.numCells
  /-- `pend`, the pending wire events, in the order they will be performed (R32). -/
  pend : List WireEvent
  /-- `run_left`, the data words an open run still owes (R33). -/
  runLeft : BitVec 16
  /-- `ILLEGAL`, sticky (R29). -/
  illegal : Bool
  /-- `started` (R31). -/
  started : Bool
  /-- `startup_cnt` (R31). -/
  startupCnt : Nat
  /-- line register `cs` (R25). -/
  cs : Level
  /-- line register `stb` (R25). -/
  stb : Level
  /-- line register `dat` (R25). -/
  dat : Level
  /-- `oe`, the lines are driven (R26). -/
  oe : Bool
  /-- `hold_cnt` (R34). -/
  holdCnt : Nat
  /-- The model's own: what the host will do, next first (log 1). -/
  host : List HostAct
  /-- The model's own: the events performed since the last reset, in order (R119, R214; log 2). -/
  trace : List WireEvent
  /-- The model's own: the events performed before the last reset, one list for each stretch between resets in which any was performed, first to last (R119, R214; log 2). -/
  past : List (List WireEvent)
  deriving DecidableEq, Repr

/-- After reset (R36). -/
def State.reset : State where
  sh := Vector.replicate Config.numCells 0
  pend := []
  runLeft := 0
  illegal := false
  started := false
  startupCnt := 0
  cs := true
  stb := true
  dat := false
  oe := false
  holdCnt := 0
  host := []
  trace := []
  past := []

/-- Why the machine stops. -/
inductive Fault where
  /-- Raised by NIB when no run is open: a data word is performed only while `run_left > 0` (R33, R115). `step` never raises it, since a word is a data word only inside a run (R83). Safe (log 7). -/
  | nibOutsideRun
  deriving DecidableEq, Repr

/-- Why an instruction is refused. -/
inductive Refusal where
  /-- Raised by `exec` for an instruction without a meaning. Safe. No instruction is left without one. -/
  | notModelled (mnemonic : String)
  deriving DecidableEq, Repr

/-- What a rising edge of `clk` finds at the port. -/
inductive Edge where
  /-- `rst_n = 0` (R200). -/
  | inReset
  /-- `req_valid ∧ req_ready`: this word is accepted (R38). -/
  | accept (w : Word)
  /-- Neither: BSE goes on with what it is doing (R110, R201). -/
  | run
  deriving DecidableEq, Repr

end Sys2Proof.Machine
end

