-- ==== Sys2Proof/Machine/Ops.lean ====
section
/-! DEFINITION. The named operations over the state: events and frames (R111), the shadow buffer (R11, R22), the error record (R171), the block step (R110), startup (R201), reset (R200) and the request port (R37, R38). -/

namespace Sys2Proof.Machine

/-! ### Events and frames -/

/-- The five events of one bit (R13, R111). -/
def bitEv (b : Level) : List WireEvent :=
  [.set .stb false, .set .dat b, .hold, .set .stb true, .hold]

/-- The events of a bit list, bit after bit. -/
def bitsEv (bs : List Level) : List WireEvent := bs.flatMap bitEv

/-- `frame(bs)`: all events of one frame (R13, R111). -/
def frame (bs : List Level) : List WireEvent := .set .cs false :: (bitsEv bs ++ [.set .cs true])

/-- `pend <- pend ++ es`: `Emit` for a list of events (R10, R32). -/
def State.emit (s : State) (es : List WireEvent) : State := { s with pend := s.pend ++ es }

/-! ### Shadow buffer -/

/-- `sh[c]`; an address past the last cell reads 0 (R11, R24). -/
def State.readCell (s : State) (c : Nat) : Nibble := s.sh[c]?.getD 0

/-- `sh[c] <- v`; the type of `v` is the mask to 4 bits (R11, R22). There is no cell past the last one, and writing it writes nothing. -/
def State.writeCell (s : State) (c : Nat) (v : Nibble) : State :=
  { s with sh := s.sh.setIfInBounds c v }

/-- Every cell <- 0 (R141). -/
def State.clearCells (s : State) : State := { s with sh := Vector.replicate Config.numCells 0 }

/-! ### Run count and error record -/

/-- `run_left <- n` (R33). -/
def State.setRunLeft (s : State) (n : BitVec 16) : State := { s with runLeft := n }

/-- `Illegal(op)`: the whole error response of BSE (R171, R175). Nothing is saved, nothing is redirected and there is no return from it; only reset clears the bit (R29). -/
def State.raiseIllegal (s : State) : State := { s with illegal := true }

/-! ### The block step -/

/-- `Set(L, b)` writes line register `L` (R25). -/
def State.setLine (s : State) (l : Line) (b : Level) : State :=
  match l with
  | .cs => { s with cs := b }
  | .stb => { s with stb := b }
  | .dat => { s with dat := b }

/-- The head event has been performed: it leaves `pend` and joins the observation (R110, R119). -/
def State.retire (s : State) (e : WireEvent) (rest : List WireEvent) : State :=
  { s with pend := rest, trace := s.trace ++ [e] }

/-- One cycle of `clk` spent on the head event (R110): a `Set` takes one cycle, a `Hold` leaves after HOLD_CYCLES. -/
def State.perform (s : State) (e : WireEvent) (rest : List WireEvent) : State :=
  match e with
  | .set l b => (s.setLine l b).retire e rest
  | .hold =>
    if s.holdCnt + 1 = Config.holdCycles then { s.retire e rest with holdCnt := 0 }
    else { s with holdCnt := s.holdCnt + 1 }

/-- The block step (R110): only while `oe = 1`. -/
def State.blockStep (s : State) : State :=
  match s.oe, s.pend with
  | true, e :: rest => s.perform e rest
  | _, _ => s

/-- One cycle of the startup count (R31, R201): on the last one the lines are driven and requests accepted, together. -/
def State.startupStep (s : State) : State :=
  if s.started then s
  else if s.startupCnt + 1 = Config.startupCycles then
    { s with startupCnt := s.startupCnt + 1, oe := true, started := true }
  else { s with startupCnt := s.startupCnt + 1 }

/-! ### The port -/

/-- `rst_n` in this cycle (R37, R200). -/
def State.rstN (s : State) : Bool :=
  match s.host with
  | .reset :: _ => false
  | _ => true

/-- The word offered in this cycle, if `req_valid = 1` (R37). -/
def State.offered (s : State) : Option Word :=
  match s.host with
  | .offer w :: _ => some w
  | _ => none

/-- `req_ready` (R38). -/
def State.reqReady (s : State) : Bool := s.rstN && s.started && s.pend.isEmpty

/-- What the rising edge finds (R38, R200). -/
def State.edge (s : State) : Edge :=
  if s.rstN then
    match s.offered with
    | some w => if s.reqReady then .accept w else .run
    | none => .run
  else .inReset

/-- The host's current entry is over. -/
def State.hostNext (s : State) : State := { s with host := s.host.tail }

/-- A cycle without acceptance has passed: an idle entry is over, an offered word stays offered (R205). -/
def State.hostWait (s : State) : State :=
  match s.host with
  | .idle :: _ => s.hostNext
  | _ => s

/-- The stretches of events performed, cut at each reset; a stretch in which nothing was performed is none (R119; log 2). -/
def State.spans (s : State) : List (List WireEvent) :=
  if s.trace = [] then s.past else s.past ++ [s.trace]

/-- A cycle with `rst_n = 0`: every item of state takes its reset value (R200, R203). The host goes on with its script, and the events performed stay performed (R119). -/
def State.takeReset (s : State) : State :=
  { State.reset with host := s.host.tail, past := s.spans }

/-- A cycle with `rst_n = 1` in which no word is accepted (R110, R201). -/
def State.runCycle (s : State) : State := s.blockStep.startupStep.hostWait

end Sys2Proof.Machine
end

