-- ==== Sys2Proof/Machine/Operands.lean ====
section
/-! DEFINITION. Every operand form (R82, R86) and the segment address decoder (R51-R53). The arithmetic of the decoder stands here only, and SETSEG alone uses it. -/

namespace Sys2Proof.Machine

/-- CMD's `cmd = mask_8(W.A)` (R82). -/
def cmdOperand (a : BitVec 12) : BitVec 8 := maskTo 8 a

/-- WRCELL's `addr = mask_6(W.A)` (R82). -/
def addrOperand (a : BitVec 12) : BitVec 6 := maskTo 6 a

/-- WRCELL's `data = mask_4(W.D)` (R82). -/
def dataOperand (d : BitVec 16) : Nibble := maskTo 4 d

/-- WRRUN's `n = W.D`, not masked (R82). -/
def countOperand (d : BitVec 16) : BitVec 16 := d

/-- SETSEG's `index = W.A`, unsigned, not masked (R82). -/
def indexOperand (a : BitVec 12) : Nat := a.toNat

/-- SETSEG's `on = W[0]` (R82). -/
def onOperand (d : BitVec 16) : Bool := d.getLsbD 0

/-- NIB's `nib = mask_4(W)` (R82). -/
def nibOperand (w : Word) : Nibble := maskTo 4 w

/-- `cell(i) = i / 4` (R51). -/
def cellOf (i : Nat) : Nat := i / 4

/-- `bit(i) = i % 4` (R51). -/
def bitOf (i : Nat) : Nat := i % 4

/-- The range check: the index selects a cell (R52). -/
def indexValid (i : Nat) : Bool := cellOf i < Config.numCells

/-- The mask of bit `b` within a cell: `1 << b` (R53). -/
def segMask (b : Nat) : Nibble := 1#4 <<< b

/-- The new value of a cell when bit `b` is set or cleared (R53, R140). -/
def updateBit (v : Nibble) (b : Nat) (on : Bool) : Nibble :=
  if on then v ||| segMask b else v &&& ~~~(segMask b)

end Sys2Proof.Machine
end

