-- ==== Sys2Proof/Machine/FrameEncoder.lean ====
section
/-! DEFINITION. The Frame Encoder's operations: CMD, WRCELL, WRRUN and NIB (R112-R115). -/

namespace Sys2Proof.Machine

/-- `CMD c` (R112). -/
def execCmd (a : BitVec 12) (_d : BitVec 16) (s : State) : Host.Outcome State Fault Refusal :=
  .next (s.emit (frame (cmdBits (cmdOperand a))))

/-- `WRCELL a, d` (R113); the shadow is not written (R23). -/
def execWrcell (a : BitVec 12) (d : BitVec 16) (s : State) : Host.Outcome State Fault Refusal :=
  .next (s.emit (frame (wrBits (addrOperand a) (dataOperand d))))

/-- The events a run opens with: chip-select and the 9 header bits (R114). -/
def runOpening : List WireEvent := .set .cs false :: bitsEv runHdrBits

/-- `WRRUN n` (R114): a run of no nibbles is closed at once. -/
def execWrrun (_a : BitVec 12) (d : BitVec 16) (s : State) : Host.Outcome State Fault Refusal :=
  if (countOperand d).toNat = 0 then .next (s.emit (runOpening ++ [.set .cs true]))
  else .next ((s.emit runOpening).setRunLeft (countOperand d))

/-- `NIB d` (R115): performed only while a run is open (R33); the last one closes the frame. -/
def execNib (w : Word) (s : State) : Host.Outcome State Fault Refusal :=
  if s.runLeft.toNat = 0 then .fault .nibOutsideRun
  else
    let left := s.runLeft - 1
    let sent := (s.emit (bitsEv (nibBits (nibOperand w)))).setRunLeft left
    .next (if left.toNat = 0 then sent.emit [.set .cs true] else sent)

end Sys2Proof.Machine
end

