-- ==== Sys2Proof/Machine/Reserved.lean ====
section
/-! DEFINITION. The eleven reserved OP values (R85, R171): the word is accepted and discarded, ILLEGAL is set, and nothing else happens. One meaning per row of the table, over the one shared operation. -/

namespace Sys2Proof.Machine

/-- Reserved OP 0x0 (R171). -/
def execReserved0 (_a : BitVec 12) (_d : BitVec 16) (s : State) :
    Host.Outcome State Fault Refusal := .next s.raiseIllegal

/-- Reserved OP 0x6 (R171). -/
def execReserved6 (_a : BitVec 12) (_d : BitVec 16) (s : State) :
    Host.Outcome State Fault Refusal := .next s.raiseIllegal

/-- Reserved OP 0x7 (R171). -/
def execReserved7 (_a : BitVec 12) (_d : BitVec 16) (s : State) :
    Host.Outcome State Fault Refusal := .next s.raiseIllegal

/-- Reserved OP 0x8 (R171). -/
def execReserved8 (_a : BitVec 12) (_d : BitVec 16) (s : State) :
    Host.Outcome State Fault Refusal := .next s.raiseIllegal

/-- Reserved OP 0x9 (R171). -/
def execReserved9 (_a : BitVec 12) (_d : BitVec 16) (s : State) :
    Host.Outcome State Fault Refusal := .next s.raiseIllegal

/-- Reserved OP 0xA (R171). -/
def execReservedA (_a : BitVec 12) (_d : BitVec 16) (s : State) :
    Host.Outcome State Fault Refusal := .next s.raiseIllegal

/-- Reserved OP 0xB (R171). -/
def execReservedB (_a : BitVec 12) (_d : BitVec 16) (s : State) :
    Host.Outcome State Fault Refusal := .next s.raiseIllegal

/-- Reserved OP 0xC (R171). -/
def execReservedC (_a : BitVec 12) (_d : BitVec 16) (s : State) :
    Host.Outcome State Fault Refusal := .next s.raiseIllegal

/-- Reserved OP 0xD (R171). -/
def execReservedD (_a : BitVec 12) (_d : BitVec 16) (s : State) :
    Host.Outcome State Fault Refusal := .next s.raiseIllegal

/-- Reserved OP 0xE (R171). -/
def execReservedE (_a : BitVec 12) (_d : BitVec 16) (s : State) :
    Host.Outcome State Fault Refusal := .next s.raiseIllegal

/-- Reserved OP 0xF (R171). -/
def execReservedF (_a : BitVec 12) (_d : BitVec 16) (s : State) :
    Host.Outcome State Fault Refusal := .next s.raiseIllegal

end Sys2Proof.Machine
end

