-- ==== Sys2Proof/Machine/SegmentBuffer.lean ====
section
/-! DEFINITION. The Segment Buffer's operations: SETSEG and CLRALL (R140, R141), the only writers of the shadow buffer besides reset (R23). -/

namespace Sys2Proof.Machine

/-- One segment's update: the read-modify-write of its cell and the cell's rewrite on the wire, in one step (R53, R61, R140). -/
def State.updateSegment (s : State) (i : Nat) (on : Bool) : State :=
  let s' := s.writeCell (cellOf i) (updateBit (s.readCell (cellOf i)) (bitOf i) on)
  s'.emit (frame (wrBits (BitVec.ofNat 6 (cellOf i)) (s'.readCell (cellOf i))))

/-- `SETSEG i, on` (R140): an index whose cell does not exist is ignored. -/
def execSetseg (a : BitVec 12) (d : BitVec 16) (s : State) : Host.Outcome State Fault Refusal :=
  .next (if indexValid (indexOperand a) then s.updateSegment (indexOperand a) (onOperand d) else s)

/-- The 40 write frames of zeros, in ascending address order (R141). -/
def clearFrames : List WireEvent :=
  (List.range Config.numCells).flatMap fun c => frame (wrBits (BitVec.ofNat 6 c) 0)

/-- `CLRALL` (R141). -/
def execClrall (_a : BitVec 12) (_d : BitVec 16) (s : State) : Host.Outcome State Fault Refusal :=
  .next (s.clearCells.emit clearFrames)

end Sys2Proof.Machine
end

