-- ==== Sys2Proof/Machine/WireFrames.lean ====
section
/-! DEFINITION. The wire frames (R87-R89): what it is for BSE to send each of them. A frame's meaning is that its events (R111) are appended to `pend`; the requests that send frames do the same (DEDUCED, log 8). What a receiver makes of a frame is in Machine/Receiver.lean. -/

namespace Sys2Proof.Machine

/-- A command frame (R87). -/
def execWireCommandFrame (c : BitVec 8) (s : State) : Host.Outcome State Fault Refusal :=
  .next (s.emit (frame (cmdBits c)))

/-- A write frame (R88). -/
def execWireWriteFrame (a : BitVec 6) (d : Nibble) (s : State) :
    Host.Outcome State Fault Refusal := .next (s.emit (frame (wrBits a d)))

/-- A run frame (R89): one frame, chip-select asserted once. -/
def execWireRunFrame (ds : List Nibble) (s : State) : Host.Outcome State Fault Refusal :=
  .next (s.emit (frame (runBits ds)))

end Sys2Proof.Machine
end

