-- ==== Sys2Proof/Machine/Dispatch.lean ====
section
/-! DEFINITION. One arm per row of the opcode table. -/

namespace Sys2Proof.Machine

def exec (i : Instr) (s : State) : Host.Outcome State Fault Refusal :=
  match i with
  | .cmd a d => Sys2Proof.Machine.execCmd a d s
  | .wrcell a d => Sys2Proof.Machine.execWrcell a d s
  | .wrrun a d => Sys2Proof.Machine.execWrrun a d s
  | .nib w => Sys2Proof.Machine.execNib w s
  | .setseg a d => Sys2Proof.Machine.execSetseg a d s
  | .clrall a d => Sys2Proof.Machine.execClrall a d s
  | .reserved0 a d => Sys2Proof.Machine.execReserved0 a d s
  | .reserved6 a d => Sys2Proof.Machine.execReserved6 a d s
  | .reserved7 a d => Sys2Proof.Machine.execReserved7 a d s
  | .reserved8 a d => Sys2Proof.Machine.execReserved8 a d s
  | .reserved9 a d => Sys2Proof.Machine.execReserved9 a d s
  | .reservedA a d => Sys2Proof.Machine.execReservedA a d s
  | .reservedB a d => Sys2Proof.Machine.execReservedB a d s
  | .reservedC a d => Sys2Proof.Machine.execReservedC a d s
  | .reservedD a d => Sys2Proof.Machine.execReservedD a d s
  | .reservedE a d => Sys2Proof.Machine.execReservedE a d s
  | .reservedF a d => Sys2Proof.Machine.execReservedF a d s
  | .wireCommandFrame c => Sys2Proof.Machine.execWireCommandFrame c s
  | .wireWriteFrame a d => Sys2Proof.Machine.execWireWriteFrame a d s
  | .wireRunFrame ds => Sys2Proof.Machine.execWireRunFrame ds s

end Sys2Proof.Machine
end

