-- ==== Sys2Proof/Machine/Flags.lean ====
section
/-! DEFINITION. The status register (R27-R31) and the output ports (R24-R26, R37). Nothing here is stored, no instruction writes it, and reading it changes nothing (R27, R58). -/

namespace Sys2Proof.Machine

/-- BUSY (R28). -/
def State.busy (s : State) : Bool := !s.pend.isEmpty || decide (0 < s.runLeft.toNat)

/-- RUN_OPEN (R30). -/
def State.runOpen (s : State) : Bool := decide (0 < s.runLeft.toNat)

/-- `stat[7:0]`: BUSY, ILLEGAL, RUN_OPEN, STARTED in bits 0 to 3, bits 7:4 read 0 (R27). -/
def State.stat (s : State) : BitVec 8 :=
  0#4 ++ BitVec.ofBool s.started ++ BitVec.ofBool s.runOpen ++ BitVec.ofBool s.illegal
    ++ BitVec.ofBool s.busy

/-- What the ports show in this cycle: while `rst_n = 0` every item of state is held at its reset value (R200). -/
def State.held (s : State) : State := if s.rstN then s else { State.reset with host := s.host }

/-- The port `stat` (R27, R37). -/
def State.statPort (s : State) : BitVec 8 := s.held.stat

/-- The port `sh_data` for an address at `sh_addr` (R24, R37). -/
def State.shData (s : State) (addr : BitVec 6) : Nibble := s.held.readCell addr.toNat

/-- The port `oe_o` (R26, R37). -/
def State.oePort (s : State) : Bool := s.held.oe

/-- A line port: the line register's level while driven; released, it has no level BSE gives it (R26; log 11). -/
def driven (oe : Bool) (level : Level) : Option Level := if oe then some level else none

/-- The port `cs_o` (R25, R37). -/
def State.csPort (s : State) : Option Level := driven s.held.oe s.held.cs

/-- The port `stb_o` (R25, R37). -/
def State.stbPort (s : State) : Option Level := driven s.held.oe s.held.stb

/-- The port `dat_o` (R25, R37). -/
def State.datPort (s : State) : Option Level := driven s.held.oe s.held.dat

end Sys2Proof.Machine
end

