-- ==== Sys2Proof/Machine/Step.lean ====
section
/-! DEFINITION. One step is one cycle of `clk` (log 3): reset, the acceptance of a word, or the block's own work. -/

namespace Sys2Proof.Machine

/-- One cycle of `clk`. An accepted word is classified by the run context (R83) and performed in the same step (R38). -/
def step (s : State) : Host.Outcome State Fault Refusal :=
  match s.edge with
  | .inReset => .next s.takeReset
  | .accept w => exec (classify s.runLeft w) s.hostNext
  | .run => .next s.runCycle

/-- `s` with a word offered next, in a cycle in which BSE accepts it as a request: startup over, lines driven, nothing pending, no run open (R38, R83; log 1). -/
def State.withFetchWord (s : State) (nbits w : Nat) : State :=
  { s with
    started := true, oe := true, pend := [], runLeft := 0
    host := .offer (BitVec.ofNat 32 (w % 2 ^ nbits)) :: s.host }

end Sys2Proof.Machine
end

