-- ==== Sys2Proof/Machine/Assembler.lean ====
section
/-! DEFINITION. The assembler (R93, R95) with its pseudo-operations WRRAW, SETSEGS and INIT (R94, R96, R97): from the text of a line to a line, and from lines to the words the host offers. -/

namespace Sys2Proof.Machine

/-! ### Lines -/

/-- One line of a program, with its operands as numbers (R93-R97). -/
inductive AsmLine where
  /-- `CMD c` -/
  | cmd (c : Nat)
  /-- `WRCELL a, d` -/
  | wrcell (a d : Nat)
  /-- `WRRUN n` -/
  | wrrun (n : Nat)
  /-- `NIB d` -/
  | nib (d : Nat)
  /-- `SETSEG i, on` -/
  | setseg (i on : Nat)
  /-- `CLRALL` -/
  | clrall
  /-- `.word v`, for reserved encodings (R93); whether another value of `v` is legal is not said, and the model takes every one (DESIGN CHOICE, log 19) -/
  | word (v : Nat)
  /-- `WRRAW d_0, ..., d_{n-1}` (R94) -/
  | wrraw (ds : List Nat)
  /-- `SETSEGS on, i_0, ..., i_{m-1}` (R96) -/
  | setsegs (on : Nat) (is : List Nat)
  /-- `INIT` (R97) -/
  | init
  deriving DecidableEq, Repr

/-- Why the assembler refuses. -/
inductive AsmReject where
  /-- An operand does not fit its request field (R93). -/
  | operandDoesNotFit
  /-- `NIB` where no run is open (R93). -/
  | nibOutsideRun
  /-- The text is no line of R93. -/
  | notALine
  deriving DecidableEq, Repr

/-- The lines a pseudo-operation stands for; any other line stands for itself (R94, R96, R97). SETSEGS without an index stands for no line, and its `on` is then not looked at (DESIGN CHOICE, log 18). -/
def AsmLine.expand : AsmLine → List AsmLine
  | .wrraw ds => .wrrun ds.length :: ds.map .nib
  | .setsegs on is => is.map fun i => .setseg i on
  | .init => [.cmd (Config.initCmds 0).toNat, .cmd (Config.initCmds 1).toNat,
      .cmd (Config.initCmds 2).toNat, .cmd (Config.initCmds 3).toNat, .clrall]
  | .cmd c => [.cmd c]
  | .wrcell a d => [.wrcell a d]
  | .wrrun n => [.wrrun n]
  | .nib d => [.nib d]
  | .setseg i on => [.setseg i on]
  | .clrall => [.clrall]
  | .word v => [.word v]

/-- A number as a word, if a bound holds for its operands. -/
def wordIf (ok : Bool) (v : Nat) : Except AsmReject Word :=
  if ok then .ok (BitVec.ofNat 32 v) else .error .operandDoesNotFit

/-- The word of a line that is no pseudo-operation (R93); an operand must fit its request field, not its wire width. `.word` takes every 32-bit value, of a reserved OP or not (DESIGN CHOICE, log 19). -/
def AsmLine.toWord : AsmLine → Except AsmReject Word
  | .cmd c => wordIf (c ≤ 0xFFF) (0x1 * 2 ^ 28 + c * 2 ^ 16)
  | .wrcell a d => wordIf (a ≤ 0xFFF && d ≤ 0xFFFF) (0x2 * 2 ^ 28 + a * 2 ^ 16 + d)
  | .wrrun n => wordIf (n ≤ 0xFFFF) (0x3 * 2 ^ 28 + n)
  | .nib d => wordIf (d ≤ 0xFFFFFFFF) d
  | .setseg i on => wordIf (i ≤ 0xFFF && on ≤ 1) (0x4 * 2 ^ 28 + i * 2 ^ 16 + on)
  | .clrall => wordIf true (0x5 * 2 ^ 28)
  | .word v => wordIf (v ≤ 0xFFFFFFFF) v
  | .wrraw _ => .error .notALine
  | .setsegs _ _ => .error .notALine
  | .init => .error .notALine

/-- `NIB` stands only among the words a run is owed (R93). -/
def AsmLine.fitsContext (owed : BitVec 16) : AsmLine → Bool
  | .nib _ => decide (0 < owed.toNat)
  | _ => true

/-- The words of expanded lines, `owed` data words being owed at their start (R84, R93). What is owed follows from the words, so a `.word` that spells a WRRUN opens a run in which NIB may stand (DESIGN CHOICE, log 19), and any line within a run is assembled as its word (DESIGN CHOICE, log 12). -/
def assembleFrom (owed : BitVec 16) : List AsmLine → Except AsmReject (List Word)
  | [] => .ok []
  | l :: ls =>
    if l.fitsContext owed then
      match l.toWord with
      | .ok w =>
        match assembleFrom (owedAfter owed w) ls with
        | .ok ws => .ok (w :: ws)
        | .error e => .error e
      | .error e => .error e
    else .error .nibOutsideRun

/-- The words of a program. -/
def assemble (ls : List AsmLine) : Except AsmReject (List Word) :=
  assembleFrom 0 (ls.flatMap AsmLine.expand)

/-! ### Text

The source has no assembler and R93 gives no more than the form of a line, so how blanks may stand and that capitals are required is the model's choice (DESIGN CHOICE, log 12). -/

/-- A blank: space or tab. -/
def isBlank (c : Char) : Bool := c == ' ' || c == '\t'

/-- Blanks at both ends taken off. -/
def trimBlanks (cs : List Char) : List Char :=
  ((cs.dropWhile isBlank).reverse.dropWhile isBlank).reverse

/-- `;` starts a comment (R93). -/
def dropComment (cs : List Char) : List Char := cs.takeWhile (· != ';')

/-- The value of a decimal digit. -/
def decDigit (c : Char) : Option Nat :=
  if '0' ≤ c ∧ c ≤ '9' then some (c.toNat - '0'.toNat) else none

/-- The value of a hexadecimal digit. -/
def hexDigit (c : Char) : Option Nat :=
  if 'a' ≤ c ∧ c ≤ 'f' then some (c.toNat - 'a'.toNat + 10)
  else if 'A' ≤ c ∧ c ≤ 'F' then some (c.toNat - 'A'.toNat + 10)
  else decDigit c

/-- The number digits spell, `n` being the number before them. -/
def numberFrom (base : Nat) (digit : Char → Option Nat) (n : Nat) : List Char → Option Nat
  | [] => some n
  | c :: cs => (digit c).bind fun d => numberFrom base digit (base * n + d) cs

/-- "Numbers are decimal, or hexadecimal with `0x`" (R93). -/
def parseNumber : List Char → Option Nat
  | [] => none
  | '0' :: 'x' :: c :: cs => numberFrom 16 hexDigit 0 (c :: cs)
  | c :: cs => numberFrom 10 decDigit 0 (c :: cs)

/-- The pieces between commas. -/
def splitCommas (piece : List Char) : List Char → List (List Char)
  | [] => [piece]
  | ',' :: cs => piece :: splitCommas [] cs
  | c :: cs => splitCommas (piece ++ [c]) cs

/-- The operands of a line: none, or numbers between commas. -/
def parseOperands (cs : List Char) : Option (List Nat) :=
  if trimBlanks cs = [] then some []
  else (splitCommas [] cs).mapM fun p => parseNumber (trimBlanks p)

/-- A mnemonic with its operands (R93, R94, R96, R97). `WRRUN` takes no start address (R95). Whether SETSEGS with no index, or WRRAW with no nibble, is a line is not said; here both are (DESIGN CHOICE, log 18). -/
def lineOf (name : List Char) (operands : List Nat) : Option AsmLine :=
  if name = ['C', 'M', 'D'] then
    match operands with
    | [c] => some (.cmd c)
    | _ => none
  else if name = ['W', 'R', 'C', 'E', 'L', 'L'] then
    match operands with
    | [a, d] => some (.wrcell a d)
    | _ => none
  else if name = ['W', 'R', 'R', 'U', 'N'] then
    match operands with
    | [n] => some (.wrrun n)
    | _ => none
  else if name = ['N', 'I', 'B'] then
    match operands with
    | [d] => some (.nib d)
    | _ => none
  else if name = ['S', 'E', 'T', 'S', 'E', 'G'] then
    match operands with
    | [i, on] => some (.setseg i on)
    | _ => none
  else if name = ['C', 'L', 'R', 'A', 'L', 'L'] then
    match operands with
    | [] => some .clrall
    | _ => none
  else if name = ['.', 'w', 'o', 'r', 'd'] then
    match operands with
    | [v] => some (.word v)
    | _ => none
  else if name = ['W', 'R', 'R', 'A', 'W'] then some (.wrraw operands)
  else if name = ['S', 'E', 'T', 'S', 'E', 'G', 'S'] then
    match operands with
    | on :: is => some (.setsegs on is)
    | [] => none
  else if name = ['I', 'N', 'I', 'T'] then
    match operands with
    | [] => some .init
    | _ => none
  else none

/-- A line of text: a program line, or nothing but blanks and a comment. -/
def parseLine (cs : List Char) : Except AsmReject (Option AsmLine) :=
  match trimBlanks (dropComment cs) with
  | [] => .ok none
  | c :: rest =>
    let name := (c :: rest).takeWhile fun x => !isBlank x
    match (parseOperands ((c :: rest).drop name.length)).bind (lineOf name) with
    | some l => .ok (some l)
    | none => .error .notALine

/-- The lines of a program text, already cut at its line ends. -/
def parseProgram : List (List Char) → Except AsmReject (List AsmLine)
  | [] => .ok []
  | t :: ts =>
    match parseLine t, parseProgram ts with
    | .ok (some l), .ok ls => .ok (l :: ls)
    | .ok none, .ok ls => .ok ls
    | .error e, _ => .error e
    | .ok _, .error e => .error e

end Sys2Proof.Machine
end

