-- ==== Sys2Proof/Machine/Receiver.lean ====
section
/-! DEFINITION. What an observer reads off BSE's events (R92, R119), and the external controller model for tests (R65). Neither is part of BSE: both are functions of the events BSE has performed or will perform, and no step depends on them. -/

namespace Sys2Proof.Machine

/-- An observer of the lines: the bits of the frame that is open, if one is, and the frames that are complete. -/
structure Observer where
  /-- The bits sent since the last `Set(CS,0)`, if no `Set(CS,1)` has followed. -/
  current : Option (List Level)
  /-- The bit lists of the frames sent whole, first to last. -/
  complete : List (List Level)
  deriving DecidableEq, Repr

/-- Nothing seen yet. -/
def Observer.start : Observer := { current := none, complete := [] }

/-- One event seen. A bit is read at its `Set(DAT, b)`: each bit has exactly one (R111; DEDUCED, log 9). -/
def Observer.see (o : Observer) (e : WireEvent) : Observer :=
  match e with
  | .set .cs false => { o with current := some [] }
  | .set .cs true =>
    match o.current with
    | some bs => { current := none, complete := o.complete ++ [bs] }
    | none => o
  | .set .dat b => { o with current := o.current.map (· ++ [b]) }
  | .set .stb _ => o
  | .hold => o

/-- A list of events seen (R92). -/
def observe (es : List WireEvent) : Observer := es.foldl Observer.see Observer.start

/-- The frames sent whole, as bit lists (R92, R119). -/
def framesOf (es : List WireEvent) : List (List Level) := (observe es).complete

/-- The bits of a frame still open. -/
def openBits (es : List WireEvent) : Option (List Level) := (observe es).current

/-- The events performed on the lines, first to last, over every reset (R119). -/
def State.performed (s : State) : List WireEvent := s.past.flatten ++ s.trace

/-- What a model of BSE shows to a claim (R119, R214). -/
structure Observation where
  /-- The events performed on the lines. -/
  events : List WireEvent
  /-- The shadow buffer. -/
  sh : Vector Nibble Config.numCells
  /-- The status register. -/
  stat : BitVec 8
  /-- The data words an open run still owes. -/
  runLeft : BitVec 16
  deriving DecidableEq, Repr

/-- The observation of a state (R119, R214). -/
def State.observation (s : State) : Observation :=
  { events := s.performed, sh := s.sh, stat := s.stat, runLeft := s.runLeft }

/-- The frames sent whole, as bit lists, over every reset. A reset sends no closing `Set(CS,1)` (R203), so a frame it cuts is none, and what is sent after it is read afresh (R92, R119). -/
def State.framesSent (s : State) : List (List Level) := s.spans.flatMap framesOf

/-- The controller's RAM `C[0..63]` of the external model (R65); `none` is a value nothing is known of (log 10). -/
abbrev Controller := Vector (Option Nibble) 64

/-- Nothing is known of the controller: at power-up (N8), and after whatever the source gives no result for. -/
def Controller.unknown : Controller := Vector.replicate 64 none

/-- `C[k] <- d_0`, `C[k+1] <- d_1`, ... (R65). -/
def Controller.writeFrom (C : Controller) (k : Nat) : List Nibble → Controller
  | [] => C
  | d :: ds => Controller.writeFrom (C.setIfInBounds k (some d)) (k + 1) ds

/-- A frame received (R65). A write frame sets one cell, a run from address 0 the cells from 0 on. An address past 39, a run that passes it, a run of no nibbles and a bit list BSE does not emit have no stated result: nothing is known afterwards (log 10). -/
def Controller.receive (C : Controller) (bs : List Level) : Controller :=
  match decodeWire bs with
  | .ok (.command _) => C
  | .ok (.writeRun a ds) =>
    if (ds.length = 1 ∨ (a = 0 ∧ 1 < ds.length)) ∧ a.toNat + ds.length ≤ Config.numCells then
      C.writeFrom a.toNat ds
    else Controller.unknown
  | .error _ => Controller.unknown

/-- The controller after a list of events, its contents before them unknown. Nothing is known of it while a frame is open (N9). -/
def controllerAfter (es : List WireEvent) : Controller :=
  match openBits es with
  | none => (framesOf es).foldl Controller.receive Controller.unknown
  | some _ => Controller.unknown

/-- Every event of every word accepted since the last reset: those performed and those still pending (R32). -/
def State.events (s : State) : List WireEvent := s.trace ++ s.pend

end Sys2Proof.Machine
end

