-- ==== Sys2Proof/Machine/Untimed.lean ====
section
/-! DEFINITION. The untimed reading of the block step (R10, R110): one step per event, a `Hold` being an event without a duration; and the cycles the clocked block takes for the same events (R213). -/

namespace Sys2Proof.Machine

/-- An event performed, without its duration (R110). -/
def State.performNow (s : State) (e : WireEvent) : State :=
  match e with
  | .set l b => { s.setLine l b with trace := s.trace ++ [e] }
  | .hold => { s with trace := s.trace ++ [e] }

/-- The block step of the untimed model (R10, R110). -/
def State.untimedStep (s : State) : State :=
  match s.oe, s.pend with
  | true, e :: rest => { s with pend := rest }.performNow e
  | _, _ => s

/-- `k` block steps of the untimed model. -/
def State.untimedRun : Nat → State → State
  | 0, s => s
  | k + 1, s => State.untimedRun k s.untimedStep

/-- Every pending event performed, in order (R59). -/
def State.drained (s : State) : State := s.pend.foldl State.performNow { s with pend := [] }

/-- The cycles of one event (R110, D31). -/
def eventCycles : WireEvent → Nat
  | .set _ _ => 1
  | .hold => Config.holdCycles

/-- The cycles of a list of events (R213). -/
def cyclesOf (es : List WireEvent) : Nat := (es.map eventCycles).sum

end Sys2Proof.Machine
end

