-- ==== Sys2Proof/Safety.lean ====
section
/-! DEFINITION. What claims about runs are stated in: the end of a run and the stuck open run (R209, R214), legal line activity (R59, R111, R117), the frames BSE may send (R90, R92), shadow coherence (R63, R143), and the invariants of the step. -/

namespace Sys2Proof.Machine

/-! ### Ends of runs -/

/-- `k` steps of the machine. -/
def runFor (k : Nat) (s : State) : Host.Outcome State Fault Refusal := Host.Core.run Sys2Proof.core k s

/-- The host does nothing, or keeps offering a word: its script stays as it is until a word is accepted (R205). -/
def State.hostSteady (s : State) : Prop :=
  s.host = [] ∨ ∃ w h, s.host = HostAct.offer w :: h

/-- The host offers no more words (R214). R214 does not say whether a script without words that still has a reset to come is such a host; here it is not: only idle cycles are left (DESIGN CHOICE, log 17). -/
def State.hostDone (s : State) : Prop := ∀ a ∈ s.host, a = HostAct.idle

/-- The end of a run (R214). -/
def State.Ended (s : State) : Prop :=
  s.hostDone ∧ s.pend = [] ∧ s.runLeft = 0 ∧ s.started = true

/-- The stuck open run: not an end (R209, R214). It is the state in which nothing is left to send; a state with `run_left > 0` and events pending is on its way there, and is no end either (DESIGN CHOICE, log 17). -/
def State.StuckOpenRun (s : State) : Prop :=
  s.hostDone ∧ s.pend = [] ∧ s.runLeft ≠ 0 ∧ s.started = true

/-- Idle: waiting for a request (R180). -/
def State.Idle (s : State) : Prop :=
  s.pend = [] ∧ s.runLeft = 0 ∧ s.started = true

/-! ### Line activity -/

/-- The level of a line after events, `b` being its level before them. -/
def levelAfter (l : Line) (b : Level) : List WireEvent → Level
  | [] => b
  | .set l' b' :: es => levelAfter l (if l' = l then b' else b) es
  | .hold :: es => levelAfter l b es

/-- Legal line activity from given levels of CS and STB: a frame opens only where none is open and closes only where one is, both with STB = 1 (R59, R117); STB moves only within a frame and only to its other level (R111, R117); DAT is set only within a frame while STB = 0 (R117); holds stand only within a frame (R111). -/
def legalFrom : Level → Level → List WireEvent → Bool
  | _, _, [] => true
  | cs, stb, .hold :: es => !cs && legalFrom cs stb es
  | cs, stb, .set .cs b :: es => b != cs && stb && legalFrom b stb es
  | cs, stb, .set .stb b :: es => !cs && b != stb && legalFrom cs b es
  | cs, stb, .set .dat _ :: es => !cs && !stb && legalFrom cs stb es

/-- The invariant of the step: what R31, R36 say of the state before startup ends, the counters' ranges (R31, R34), the line registers as the performed events left them (R25), legal line activity, and lines that come to rest with STB = 1 and with CS = 0 exactly when a run is open (R30, R117). -/
structure State.Inv (s : State) : Prop where
  /-- The lines are driven exactly when requests can be accepted (R26, R31). -/
  drivenWhenStarted : s.oe = s.started
  /-- Before startup ends nothing has been done (R28, R36). -/
  beforeStartup : s.started = false →
    s.pend = [] ∧ s.runLeft = 0 ∧ s.trace = [] ∧ s.illegal = false ∧ s.sh = State.reset.sh ∧
      s.startupCnt < Config.startupCycles
  /-- The startup counter stays in its range (R31). -/
  startupInRange : s.startupCnt ≤ Config.startupCycles
  /-- The hold counter stays in its range, and counts only at a `Hold` (R34). -/
  holdInRange : s.holdCnt < Config.holdCycles ∧
    (s.holdCnt ≠ 0 → s.pend.head? = some WireEvent.hold)
  /-- The line registers are what the events performed since reset made them (R25, R36). -/
  lines : s.cs = levelAfter .cs true s.trace ∧ s.stb = levelAfter .stb true s.trace ∧
    s.dat = levelAfter .dat false s.trace
  /-- All events, performed and pending, are legal line activity (R59, R111, R117). -/
  legal : legalFrom true true s.events = true
  /-- So were the events performed before each earlier reset (R59, R117). -/
  pastLegal : ∀ es ∈ s.past, legalFrom true true es = true
  /-- At rest CS is low exactly when a run is open, and STB is high (R30, R117). -/
  atRest : (levelAfter .cs true s.events = false ↔ s.runLeft ≠ 0) ∧
    levelAfter .stb true s.events = true

/-! ### Frames -/

/-- The bits of a run frame that is still open: the header and whole nibbles (R89, R114, R115). -/
def openRunBits (bs : List Level) : Bool :=
  bs.take 9 == runHdrBits && decide (9 ≤ bs.length) && (bs.length - 9) % 4 == 0

/-- A frame BSE may send: it decodes (R92) to a frame of the opcode table, that is a command frame, a write frame, or a run frame to address 0 (R87-R90) of at most 65535 nibbles (R114). -/
def BseFrame (bs : List Level) : Prop :=
  ∃ f i, decodeWire bs = .ok f ∧ f.row = some i ∧ WellFormed i = true

/-- Every frame sent or to be sent is one that BSE may send (R90, R92), and a frame stays open exactly while a run is open, as a run frame (R30, R89). -/
structure State.FramesInv (s : State) : Prop where
  /-- Every complete frame is one BSE may send (R90, R92). -/
  complete : ∀ bs ∈ framesOf s.events, BseFrame bs
  /-- So is every frame sent whole before an earlier reset. -/
  past : ∀ es ∈ s.past, ∀ bs ∈ framesOf es, BseFrame bs
  /-- No run open: no frame open. -/
  closed : s.runLeft = 0 → openBits s.events = none
  /-- A run open: its frame is open, and its nibbles with those still owed are no more than a run can have (R114). -/
  opened : s.runLeft ≠ 0 → ∃ bs, openBits s.events = some bs ∧ openRunBits bs = true ∧
    (bs.length - 9) / 4 + s.runLeft.toNat < 2 ^ 16

/-! ### The controller and the shadow -/

/-- The controller of the external model once every event of every accepted word has reached the lines (R65). -/
def State.controller (s : State) : Controller := controllerAfter s.events

/-- Shadow coherence of one cell: the controller is known to hold the shadow's value (R143). -/
def State.Coherent (s : State) (c : Nat) : Prop :=
  s.controller[c]? = some (some (s.readCell c))

/-! ### Sequences of instructions -/

/-- Instructions performed one after the other; a stop ends the sequence. -/
def execAll : List Instr → State → Option State
  | [], s => some s
  | i :: is, s =>
    match exec i s with
    | .next t => execAll is t
    | .fault _ => none
    | .refused _ => none

/-- What the last word on a segment says, `on` being what was said before: the last SETSEG with that index decides, CLRALL says off, nothing else says anything (R145). -/
def lastOn (seg : Nat) (on : Bool) : List Instr → Bool
  | [] => on
  | .setseg a d :: is => lastOn seg (if a.toNat = seg then d.getLsbD 0 else on) is
  | .clrall _ _ :: is => lastOn seg false is
  | _ :: is => lastOn seg on is

end Sys2Proof.Machine
end

