-- ==== Sys2Proof/Certificates/Slice0/Obligations.lean ====
section
/-! DEFINITION. The statements for the provers. -/

open Sys2Proof Sys2Proof.Machine

/-! ### Reset and startup -/

/-- R36, R200, R203: a cycle with `rst_n = 0` leaves every item of R20 at its reset value, with `stat` and `req_ready` following, and nothing is known of the controller (R203; that this holds of every reset, the one of an idle block too, is the model's choice, DESIGN CHOICE, log 10, its observer starting anew by log 2). -/
def Obligations.ResetTakesEveryItemToItsValue : Prop :=
  ∀ s : State, s.rstN = false → ∃ t, step s = .next t ∧
    (∀ c, c < 40 → t.readCell c = 0) ∧ t.pend = [] ∧ t.runLeft = 0 ∧ t.illegal = false ∧
    t.started = false ∧ t.startupCnt = 0 ∧ t.cs = true ∧ t.stb = true ∧ t.dat = false ∧
    t.oe = false ∧ t.holdCnt = 0 ∧ t.stat = 0 ∧ t.reqReady = false ∧
    (∀ c, c < 40 → t.controller[c]? = some none)

/-- R200, R203: while `rst_n = 0` the ports show the reset values at once, in whatever state a frame or run was: lines released, `stat` and `sh_data` 0, no word taken. -/
def Obligations.PortsShowResetAtOnce : Prop :=
  ∀ s : State, s.rstN = false → s.statPort = 0 ∧ s.reqReady = false ∧ s.oePort = false ∧
    s.csPort = none ∧ s.stbPort = none ∧ s.datPort = none ∧ ∀ addr, s.shData addr = 0

/-- R31, R201: after reset is released, STARTUP_CYCLES cycles pass with the lines undriven and the port refusing; then `oe` and `started` become 1 together, and a word offered meanwhile is still offered. That the first cycle with `rst_n = 1` is the first one counted is DEDUCED (log 4), and that the counter keeps STARTUP_CYCLES afterwards is the model's choice (DESIGN CHOICE, log 6). -/
def Obligations.StartupLastsStartupCycles : Prop :=
  ∀ s : State, s.started = false → s.oe = false → s.pend = [] → s.startupCnt = 0 → s.hostSteady →
    (∃ t, runFor Config.startupCycles s = .next t ∧ t.stat.getLsbD 3 = true ∧
      t = { s with startupCnt := Config.startupCycles, oe := true, started := true }) ∧
    ∀ k, k < Config.startupCycles → ∃ t, runFor k s = .next t ∧ t.startupCnt = k ∧
      t.started = false ∧ t.stat.getLsbD 3 = false ∧ t.oe = false ∧ t.reqReady = false

/-! ### The request port -/

/-- R83: an accepted word is a data word while a run is open, else the operation its OP names, else Illegal. -/
def Obligations.AcceptedWordsAreClassifiedByRunContext : Prop :=
  ∀ (s : State) (w : Word) (h : List HostAct), s.host = .offer w :: h → s.reqReady = true →
    (0 < s.runLeft.toNat → step s = exec (.nib w) { s with host := h }) ∧
    (s.runLeft.toNat = 0 →
      (opField w = 0x1 → step s = exec (.cmd (aField w) (dField w)) { s with host := h }) ∧
      (opField w = 0x2 → step s = exec (.wrcell (aField w) (dField w)) { s with host := h }) ∧
      (opField w = 0x3 → step s = exec (.wrrun (aField w) (dField w)) { s with host := h }) ∧
      (opField w = 0x4 → step s = exec (.setseg (aField w) (dField w)) { s with host := h }) ∧
      (opField w = 0x5 → step s = exec (.clrall (aField w) (dField w)) { s with host := h }) ∧
      ((opField w).toNat = 0 ∨ 6 ≤ (opField w).toNat →
        step s = .next { s with host := h, illegal := true }))

/-- R38, R83: a step that accepts a word is `exec` of the instruction the decoder reads from it in the run context, on the state with the word taken from the host's script; the instruction is well formed. -/
def Obligations.StepRunsTheDecodedInstruction : Prop :=
  ∀ (s : State) (w : Word) (h : List HostAct) (i : Instr), s.host = .offer w :: h →
    s.reqReady = true → classify s.runLeft w = i →
    WellFormed i = true ∧ step s = exec i { s with host := h }

/-- R38, R205: a word is taken exactly when startup is over, nothing is pending and reset is released; otherwise it stays offered, nothing is dropped or queued, and the block goes on exactly as if no word were offered. -/
def Obligations.OfferedWordWaitsUntilReady : Prop :=
  (∀ s : State, s.reqReady = true ↔ s.rstN = true ∧ s.started = true ∧ s.pend = []) ∧
  ∀ (s : State) (w : Word) (h : List HostAct), s.host = .offer w :: h →
    (s.reqReady = true → ∃ t, step s = .next t ∧ t.host = h) ∧
    (s.reqReady = false → ∃ t, step s = .next t ∧ t.host = s.host ∧ t.sh = s.sh ∧
      t.runLeft = s.runLeft ∧ t.illegal = s.illegal ∧ t.events = s.events ∧
      ∃ u, step { s with host := [] } = .next u ∧ t = { u with host := s.host })

/-! ### The block step -/

/-- R110: while `oe = 1` a cycle without reset is spent on the head of `pend`: a Set writes its line and leaves; a Hold counts and leaves on its last cycle. Once startup is over, nothing else of the block changes. That a Hold joins the observation on its last cycle is DEDUCED (log 14). -/
def Obligations.BlockStepPerformsTheHeadEvent : Prop :=
  ∀ (s : State) (e : WireEvent) (rest : List WireEvent), s.rstN = true → s.oe = true →
    s.pend = e :: rest → ∃ t, step s = .next t ∧
      t.sh = s.sh ∧ t.runLeft = s.runLeft ∧ t.illegal = s.illegal ∧ t.oe = true ∧
      t.past = s.past ∧
      (s.started = true → t.started = true ∧ t.startupCnt = s.startupCnt) ∧
      (∀ l b, e = .set l b → t.pend = rest ∧ t.trace = s.trace ++ [e] ∧ t.holdCnt = s.holdCnt ∧
        t.cs = (if l = .cs then b else s.cs) ∧ t.stb = (if l = .stb then b else s.stb) ∧
        t.dat = (if l = .dat then b else s.dat)) ∧
      (e = .hold → t.cs = s.cs ∧ t.stb = s.stb ∧ t.dat = s.dat ∧
        (s.holdCnt + 1 = Config.holdCycles →
          t.pend = rest ∧ t.trace = s.trace ++ [e] ∧ t.holdCnt = 0) ∧
        (s.holdCnt + 1 ≠ Config.holdCycles →
          t.pend = s.pend ∧ t.trace = s.trace ∧ t.holdCnt = s.holdCnt + 1))

/-- R10, R59, R110: `k` steps of the untimed block perform the first `k` pending events, each once and in order, leave each line at its last Set and change nothing else; as many steps as events are pending perform them all. While `oe = 0` the block performs nothing. -/
def Obligations.UntimedDrainPerformsEveryEvent : Prop :=
  ∀ s : State, (s.oe = true → (∀ k, k ≤ s.pend.length → State.untimedRun k s = { s with
      pend := s.pend.drop k, trace := s.trace ++ s.pend.take k,
      cs := levelAfter .cs s.cs (s.pend.take k), stb := levelAfter .stb s.stb (s.pend.take k),
      dat := levelAfter .dat s.dat (s.pend.take k) }) ∧
    State.untimedRun s.pend.length s = s.drained) ∧
    (s.oe = false → ∀ k, State.untimedRun k s = s) ∧
    s.drained.trace = s.trace ++ s.pend ∧ s.drained.pend = [] ∧
    s.drained.cs = levelAfter .cs s.cs s.pend ∧ s.drained.stb = levelAfter .stb s.stb s.pend ∧
    s.drained.dat = levelAfter .dat s.dat s.pend ∧
    s.drained = { s with
      pend := [], trace := s.drained.trace, cs := s.drained.cs, stb := s.drained.stb,
      dat := s.drained.dat }

/-- R59, R110, R205, R213: the clocked block refines the untimed one, whatever a host that asks for no reset meanwhile does: after exactly the cycles of its pending events, one per Set and HOLD_CYCLES per Hold, it is in the state the untimed block reaches in one step per event, every word offered meanwhile is still offered, and only idle entries of the host are over. -/
def Obligations.ClockedBlockRefinesUntimed : Prop :=
  ∀ s : State, s.started = true → s.oe = true → s.holdCnt = 0 →
    (∀ a ∈ s.host.take (cyclesOf s.pend), a ≠ .reset) →
    ∃ (k : Nat) (h : List HostAct), k ≤ cyclesOf s.pend ∧ s.host = List.replicate k .idle ++ h ∧
      runFor (cyclesOf s.pend) s =
        .next { State.untimedRun s.pend.length s with host := h }

/-! ### The operations -/

/-- R112: CMD appends the command frame of the low 8 bits of A, whatever A's and D's other bits, and changes nothing else. -/
def Obligations.CmdSendsACommandFrame : Prop :=
  ∀ (a : BitVec 12) (d : BitVec 16) (s : State), exec (.cmd a d) s = .next { s with
    pend := s.pend ++ frame ([true, false, false] ++ bits (a.toNat % 256) 8 ++ [false]) }

/-- R113: WRCELL appends the write frame of the low 6 bits of A and the low 4 bits of D and changes nothing else, the shadow included. -/
def Obligations.WrcellSendsAWriteFrame : Prop :=
  ∀ (a : BitVec 12) (d : BitVec 16) (s : State), exec (.wrcell a d) s = .next { s with
    pend := s.pend ++
      frame ([true, false, true] ++ bits (a.toNat % 64) 6 ++ bits (d.toNat % 16) 4) }

/-- R114: WRRUN appends CS low and the nine header bits; a count of 0 closes the frame at once, another count becomes `run_left`. Nothing else changes. -/
def Obligations.WrrunOpensARunFrame : Prop :=
  ∀ (a : BitVec 12) (d : BitVec 16) (s : State),
    (d.toNat = 0 → exec (.wrrun a d) s = .next { s with
      pend := s.pend ++ ([.set .cs false] ++ bitsEv ([true, false, true] ++ bits 0 6) ++
        [.set .cs true]) }) ∧
    (d.toNat ≠ 0 → exec (.wrrun a d) s = .next { s with
      pend := s.pend ++ ([.set .cs false] ++ bitsEv ([true, false, true] ++ bits 0 6))
      runLeft := d })

/-- R115: within a run NIB appends the four bits of the word's low nibble, owes one word less, and closes the frame when none is owed any more. Nothing else changes. -/
def Obligations.NibSendsOneNibble : Prop :=
  ∀ (w : Word) (s : State), 0 < s.runLeft.toNat → exec (.nib w) s = .next { s with
    pend := s.pend ++ (bitsEv (bits (w.toNat % 16) 4) ++
      (if s.runLeft.toNat = 1 then [.set .cs true] else []))
    runLeft := BitVec.ofNat 16 (s.runLeft.toNat - 1) }

/-- R33, R115: no data word is performed outside a run (that `exec` stops there is the model's form of it, log 7), and `step` never asks for one. -/
def Obligations.NibIsNeverPerformedOutsideARun : Prop :=
  (∀ (w : Word) (s : State), s.runLeft.toNat = 0 → exec (.nib w) s = .fault .nibOutsideRun) ∧
  ∀ (owed : BitVec 16) (w v : Word), classify owed w = .nib v → 0 < owed.toNat ∧ v = w

/-- R53, R140: a SETSEG with an index below 160 makes bit `i % 4` of cell `i / 4` the value of bit 0 of D and leaves every other bit of every cell as it was; it appends the write frame of that whole cell, also when no bit changes; nothing else changes. -/
def Obligations.SetsegChangesOneBitAndRewritesItsCell : Prop :=
  ∀ (i : BitVec 12) (d : BitVec 16) (s : State), i.toNat < 160 →
    ∃ t, exec (.setseg i d) s = .next t ∧
      (∀ c k, c < 40 → k < 4 → (t.readCell c).getLsbD k =
        if c = i.toNat / 4 ∧ k = i.toNat % 4 then d.getLsbD 0 else (s.readCell c).getLsbD k) ∧
      t.pend = s.pend ++ frame ([true, false, true] ++ bits (i.toNat / 4) 6 ++
        bits (t.readCell (i.toNat / 4)).toNat 4) ∧
      t = { s with sh := t.sh, pend := t.pend }

/-- R52, R140: a SETSEG with an index of 160 or above changes nothing. -/
def Obligations.SetsegIgnoresIndicesPastTheLast : Prop :=
  ∀ (i : BitVec 12) (d : BitVec 16) (s : State), 160 ≤ i.toNat → exec (.setseg i d) s = .next s

/-- R141, R144: CLRALL makes every cell 0 and appends the write frames of 0 to the 40 cells, in ascending order; nothing else changes. -/
def Obligations.ClrallBlanksEveryCell : Prop :=
  ∀ (a : BitVec 12) (d : BitVec 16) (s : State), ∃ t, exec (.clrall a d) s = .next t ∧
    (∀ c, c < 40 → t.readCell c = 0) ∧
    t.pend = s.pend ++ (List.range 40).flatMap (fun c =>
      frame ([true, false, true] ++ bits c 6 ++ [false, false, false, false])) ∧
    t = { s with sh := t.sh, pend := t.pend }

/-- R85, R171: a reserved word of each of the eleven OP values sets ILLEGAL and changes nothing else. -/
def Obligations.ReservedWordsOnlySetIllegal : Prop :=
  ∀ (a : BitVec 12) (d : BitVec 16) (s : State),
    exec (.reserved0 a d) s = .next { s with illegal := true } ∧
    exec (.reserved6 a d) s = .next { s with illegal := true } ∧
    exec (.reserved7 a d) s = .next { s with illegal := true } ∧
    exec (.reserved8 a d) s = .next { s with illegal := true } ∧
    exec (.reserved9 a d) s = .next { s with illegal := true } ∧
    exec (.reservedA a d) s = .next { s with illegal := true } ∧
    exec (.reservedB a d) s = .next { s with illegal := true } ∧
    exec (.reservedC a d) s = .next { s with illegal := true } ∧
    exec (.reservedD a d) s = .next { s with illegal := true } ∧
    exec (.reservedE a d) s = .next { s with illegal := true } ∧
    exec (.reservedF a d) s = .next { s with illegal := true }

/-- R87-R89, R111: sending a frame of the wire appends its events, chip-select low around all its bits, and changes nothing else. That this is the meaning of a wire row is DEDUCED (log 8). -/
def Obligations.WireFramesAreSentWhole : Prop :=
  ∀ s : State,
    (∀ c : BitVec 8, exec (.wireCommandFrame c) s = .next { s with
      pend := s.pend ++ ([.set .cs false] ++ bitsEv ([true, false, false] ++ bits c.toNat 8 ++
        [false]) ++ [.set .cs true]) }) ∧
    (∀ (a : BitVec 6) (d : Nibble), exec (.wireWriteFrame a d) s = .next { s with
      pend := s.pend ++ ([.set .cs false] ++ bitsEv ([true, false, true] ++ bits a.toNat 6 ++
        bits d.toNat 4) ++ [.set .cs true]) }) ∧
    (∀ ds : List Nibble, exec (.wireRunFrame ds) s = .next { s with
      pend := s.pend ++ ([.set .cs false] ++ bitsEv ([true, false, true] ++ bits 0 6 ++
        ds.flatMap fun d => bits d.toNat 4) ++ [.set .cs true]) })

/-- R112-R114, R140: CMD, WRCELL, an empty WRRUN and a valid SETSEG send exactly the frame their row of the wire table names (a wire row's meaning: DEDUCED, log 8). -/
def Obligations.RequestsSendTheFramesOfTheTable : Prop :=
  ∀ (a : BitVec 12) (d : BitVec 16) (s : State),
    exec (.cmd a d) s = exec (.wireCommandFrame (BitVec.ofNat 8 a.toNat)) s ∧
    exec (.wrcell a d) s =
      exec (.wireWriteFrame (BitVec.ofNat 6 a.toNat) (BitVec.ofNat 4 d.toNat)) s ∧
    exec (.wrrun a 0) s = exec (.wireRunFrame []) s ∧
    (a.toNat < 160 → ∃ v sh', exec (.setseg a d) s =
      exec (.wireWriteFrame (BitVec.ofNat 6 (a.toNat / 4)) v) { s with sh := sh' } ∧
      sh'[a.toNat / 4]? = some v)

/-- R84, R89, R114, R115: WRRUN n followed by its n data words leaves what sending one run frame of their nibbles leaves: one frame, chip-select asserted once (a wire row's meaning: DEDUCED, log 8). -/
def Obligations.RunOfDataWordsIsOneRunFrame : Prop :=
  ∀ (a : BitVec 12) (ws : List Word) (s : State), ws.length < 2 ^ 16 → s.runLeft = 0 →
    ∃ t, execAll (.wrrun a (BitVec.ofNat 16 ws.length) :: ws.map .nib) s = some t ∧
      exec (.wireRunFrame (ws.map (maskTo 4))) s = .next t

/-- R82, R86, R171, R173: masked-off and ignored bits have no effect, and no field of a reserved word is looked at. -/
def Obligations.IgnoredBitsHaveNoEffect : Prop :=
  ∀ (a a' : BitVec 12) (d d' : BitVec 16) (w w' : Word) (s : State),
    (a.toNat % 256 = a'.toNat % 256 → exec (.cmd a d) s = exec (.cmd a' d') s) ∧
    (a.toNat % 64 = a'.toNat % 64 → d.toNat % 16 = d'.toNat % 16 →
      exec (.wrcell a d) s = exec (.wrcell a' d') s) ∧
    exec (.wrrun a d) s = exec (.wrrun a' d) s ∧
    (d.toNat % 2 = d'.toNat % 2 → exec (.setseg a d) s = exec (.setseg a d') s) ∧
    exec (.clrall a d) s = exec (.clrall a' d') s ∧
    (w.toNat % 16 = w'.toNat % 16 → exec (.nib w) s = exec (.nib w') s) ∧
    exec (.reserved0 a d) s = exec (.reserved0 a' d') s ∧
    exec (.reserved6 a d) s = exec (.reserved6 a' d') s ∧
    exec (.reserved7 a d) s = exec (.reserved7 a' d') s ∧
    exec (.reserved8 a d) s = exec (.reserved8 a' d') s ∧
    exec (.reserved9 a d) s = exec (.reserved9 a' d') s ∧
    exec (.reservedA a d) s = exec (.reservedA a' d') s ∧
    exec (.reservedB a d) s = exec (.reservedB a' d') s ∧
    exec (.reservedC a d) s = exec (.reservedC a' d') s ∧
    exec (.reservedD a d) s = exec (.reservedD a' d') s ∧
    exec (.reservedE a d) s = exec (.reservedE a' d') s ∧
    exec (.reservedF a d) s = exec (.reservedF a' d') s

/-- R23, R58, R110, R119: no instruction touches the line registers, the counters, `oe`, `started`, the host or the events performed; every instruction keeps what is pending and appends to it; `sh` changes only by SETSEG and CLRALL, ILLEGAL only by words of the eleven reserved rows, `run_left` only by WRRUN and NIB. -/
def Obligations.InstructionsTouchOnlyTheirOwnState : Prop :=
  ∀ (i : Instr) (s t : State), exec i s = .next t →
    t = { s with sh := t.sh, pend := t.pend, runLeft := t.runLeft, illegal := t.illegal } ∧
    s.pend <+: t.pend ∧
    (t.sh ≠ s.sh → ∃ a d, i = .setseg a d ∨ i = .clrall a d) ∧
    (t.runLeft ≠ s.runLeft → (∃ a d, i = .wrrun a d) ∨ ∃ w, i = .nib w) ∧
    (t.illegal ≠ s.illegal → ∃ a d, i = .reserved0 a d ∨ i = .reserved6 a d ∨
      i = .reserved7 a d ∨ i = .reserved8 a d ∨ i = .reserved9 a d ∨ i = .reservedA a d ∨
      i = .reservedB a d ∨ i = .reservedC a d ∨ i = .reservedD a d ∨ i = .reservedE a d ∨
      i = .reservedF a d)

/-! ### Encodings -/

/-- R80, R81, R87-R89, R92: decoding the encoding of a well-formed instruction gives it back, with every operand at every value: a request by its OP, a data word within a run, a frame by R92 (a run frame of one nibble being, bit for bit, a write frame to address 0). -/
def Obligations.EncodedInstructionsDecode : Prop :=
  ∀ i : Instr, WellFormed i = true →
    (∀ w, encode i = .word w → decodeRequest w = i ∨
      ((∃ v, i = .nib v) ∧ ∀ owed : BitVec 16, 0 < owed.toNat → classify owed w = i)) ∧
    (∀ bs, encode i = .frame bs → ∃ f, decodeWire bs = .ok f ∧
      (f.row = some i ∨ ∃ d, i = .wireRunFrame [d] ∧ f.row = some (.wireWriteFrame 0 d)))

/-- R81, R85, R173: every 32-bit word accepted outside a run is exactly one instruction, and its encoding is the word: no bit is lost and no two readings overlap. -/
def Obligations.EveryRequestWordIsOneInstruction : Prop :=
  ∀ w : Word, WellFormed (decodeRequest w) = true ∧ encode (decodeRequest w) = .word w ∧
    ∀ i : Instr, encode i = .word w → (∃ v, i = .nib v) ∨ i = decodeRequest w

/-- R81, R87, R88: words and frames written out from the spec's tables decode to what they stand for. -/
def Obligations.SpecWordsDecode : Prop :=
  decodeRequest 0x10010000 = .cmd 1 0 ∧ decodeRequest 0x2027000F = .wrcell 39 15 ∧
  decodeRequest 0x30000003 = .wrrun 0 3 ∧ decodeRequest 0x409F0001 = .setseg 159 1 ∧
  decodeRequest 0x50000000 = .clrall 0 0 ∧ decodeRequest 0x00000000 = .reserved0 0 0 ∧
  decodeRequest 0xF0000000 = .reservedF 0 0 ∧ classify 1 0x40050001 = .nib 0x40050001 ∧
  decodeWire (bits 0b100000000010 12) = .ok (.command 1) ∧
  decodeWire (bits 0b1011001111111 13) = .ok (.writeRun 39 [15])

/-- R87, R91: the bits of a command frame, in transmission order. -/
def Obligations.CommandFrameBits : Prop :=
  ∀ c : BitVec 8, cmdBits c = [true, false, false,
    c.getLsbD 7, c.getLsbD 6, c.getLsbD 5, c.getLsbD 4, c.getLsbD 3, c.getLsbD 2, c.getLsbD 1,
    c.getLsbD 0, false] ∧ (cmdBits c).length = 12

/-- R88: the bits of a write frame, in transmission order. -/
def Obligations.WriteFrameBits : Prop :=
  ∀ (a : BitVec 6) (d : Nibble), wrBits a d = [true, false, true,
    a.getLsbD 5, a.getLsbD 4, a.getLsbD 3, a.getLsbD 2, a.getLsbD 1, a.getLsbD 0,
    d.getLsbD 3, d.getLsbD 2, d.getLsbD 1, d.getLsbD 0] ∧ (wrBits a d).length = 13

/-- R89: the bits of a run frame: prefix, address 0, and nibble k at positions 9+4k to 12+4k, most significant bit first; 9 + 4n bits, chip-select asserted once around all of them; a run of one nibble is the write frame to address 0. -/
def Obligations.RunFrameBits : Prop :=
  (∀ ds : List Nibble, (runBits ds).length = 9 + 4 * ds.length ∧
    (frame (runBits ds)).filter (fun e => e == .set .cs false || e == .set .cs true) =
      [.set .cs false, .set .cs true] ∧
    (runBits ds).take 9 = [true, false, true, false, false, false, false, false, false] ∧
    ∀ (k : Nat) (d : Nibble), ds[k]? = some d → ((runBits ds).drop (9 + 4 * k)).take 4 =
      [d.getLsbD 3, d.getLsbD 2, d.getLsbD 1, d.getLsbD 0]) ∧
  ∀ d : Nibble, runBits [d] = wrBits 0 d

/-- R92: every frame BSE emits decodes to the operands that produced it. -/
def Obligations.EmittedFramesDecodeToTheirOperands : Prop :=
  (∀ c : BitVec 8, decodeWire (cmdBits c) = .ok (.command c)) ∧
  (∀ (a : BitVec 6) (d : Nibble), decodeWire (wrBits a d) = .ok (.writeRun a [d])) ∧
  ∀ ds : List Nibble, decodeWire (runBits ds) = .ok (.writeRun 0 ds)

/-- R51, R52: the index decode is one-to-one on 0..4095, and an index is valid exactly when it is below 160. -/
def Obligations.IndexDecodeIsOneToOne : Prop :=
  ∀ i : BitVec 12, bitOf i.toNat < 4 ∧ i.toNat = 4 * cellOf i.toNat + bitOf i.toNat ∧
    (indexValid i.toNat = true ↔ i.toNat < 160) ∧
    ∀ j : BitVec 12, cellOf i.toNat = cellOf j.toNat → bitOf i.toNat = bitOf j.toNat → i = j

/-- R111, R213: a frame of k bits has 5k + 2 events, 2k of them Holds, and is read back as its bits by an observer, who reads a bit at its Set(DAT, b) (DEDUCED, log 9). -/
def Obligations.FrameHasFiveEventsPerBit : Prop :=
  ∀ bs : List Level, (frame bs).length = 5 * bs.length + 2 ∧
    (frame bs).count .hold = 2 * bs.length ∧
    cyclesOf (frame bs) = 2 + bs.length * (3 + 2 * Config.holdCycles) ∧
    framesOf (frame bs) = [bs] ∧ openBits (frame bs) = none

/-- R213: events and cycles of each operation, from nothing pending: CMD, WRCELL, SETSEG, CLRALL and a whole run with its data words. -/
def Obligations.OperationsHaveTheCostsOfTheTable : Prop :=
  ∀ (a : BitVec 12) (d : BitVec 16) (ws : List Word) (s t : State),
    s.pend = [] → s.runLeft = 0 →
    (exec (.cmd a d) s = .next t →
      t.pend.length = 62 ∧ cyclesOf t.pend = 38 + 24 * Config.holdCycles) ∧
    (exec (.wrcell a d) s = .next t →
      t.pend.length = 67 ∧ cyclesOf t.pend = 41 + 26 * Config.holdCycles) ∧
    (exec (.setseg a d) s = .next t →
      (a.toNat < 160 → t.pend.length = 67 ∧ cyclesOf t.pend = 41 + 26 * Config.holdCycles) ∧
      (160 ≤ a.toNat → t.pend.length = 0 ∧ cyclesOf t.pend = 0)) ∧
    (exec (.clrall a d) s = .next t →
      t.pend.length = 2680 ∧ cyclesOf t.pend = 1640 + 1040 * Config.holdCycles) ∧
    (ws.length < 2 ^ 16 →
      execAll (.wrrun a (BitVec.ofNat 16 ws.length) :: ws.map .nib) s = some t →
      t.pend.length = 47 + 20 * ws.length ∧ cyclesOf t.pend =
        29 + 18 * Config.holdCycles + ws.length * (12 + 8 * Config.holdCycles))

/-! ### Status, errors and readback -/

/-- R27-R31: what each bit of `stat` shows. -/
def Obligations.StatusRegisterBits : Prop :=
  ∀ s : State, (s.stat.getLsbD 0 = true ↔ s.pend ≠ [] ∨ 0 < s.runLeft.toNat) ∧
    s.stat.getLsbD 1 = s.illegal ∧ (s.stat.getLsbD 2 = true ↔ 0 < s.runLeft.toNat) ∧
    s.stat.getLsbD 3 = s.started ∧ ∀ k, 4 ≤ k → s.stat.getLsbD k = false

/-- R28: BUSY is work left; it is 0 during reset and startup; BUSY = 0 means that every event of every accepted word has been performed. -/
def Obligations.BusyMeansWorkLeft : Prop :=
  (∀ s : State, s.busy = true ↔ s.pend ≠ [] ∨ 0 < s.runLeft.toNat) ∧
  (∀ s : State, s.rstN = false → s.statPort.getLsbD 0 = false) ∧
  (∀ s : State, s.Inv → s.started = false → s.busy = false) ∧
  ∀ s : State, s.busy = false → s.started = true → s.events = s.trace ∧ s.runLeft = 0

/-- R29: ILLEGAL becomes 1 exactly when a reserved word is accepted outside a run, stays until reset, and has no influence on anything else. -/
def Obligations.IllegalIsStickyUntilReset : Prop :=
  (∀ s t : State, step s = .next t → (t.illegal = true ↔ s.rstN = true ∧ (s.illegal = true ∨
    ∃ w, s.edge = .accept w ∧ s.runLeft.toNat = 0 ∧
      ((opField w).toNat = 0 ∨ 6 ≤ (opField w).toNat)))) ∧
  ∀ s t : State, s.rstN = true → step s = .next t →
    step { s with illegal := true } = .next { t with illegal := true }

/-- R23: only SETSEG, CLRALL and reset write the shadow buffer. -/
def Obligations.OnlySetsegClrallAndResetWriteTheShadow : Prop :=
  ∀ s t : State, step s = .next t → t.sh ≠ s.sh → s.rstN = false ∨
    ∃ w, s.edge = .accept w ∧ s.runLeft.toNat = 0 ∧ (opField w = 0x4 ∨ opField w = 0x5)

/-- R24, R200: the readback port shows the addressed cell, 0 past the last cell and during reset. -/
def Obligations.ReadbackShowsTheShadow : Prop :=
  ∀ (s : State) (addr : BitVec 6),
    (s.rstN = true → ∀ v, s.sh[addr.toNat]? = some v → s.shData addr = v) ∧
    (40 ≤ addr.toNat → s.shData addr = 0) ∧ (s.rstN = false → s.shData addr = 0)

/-- R26, R37: the line ports show the line registers exactly while `oe` is 1 and reset is released. -/
def Obligations.LinePortsShowTheLineRegisters : Prop :=
  ∀ s : State,
    (s.rstN = true → s.oe = true →
      s.csPort = some s.cs ∧ s.stbPort = some s.stb ∧ s.datPort = some s.dat) ∧
    (s.rstN = false ∨ s.oe = false → s.csPort = none ∧ s.stbPort = none ∧ s.datPort = none)

/-! ### Whole-machine rules -/

/-- R170, R174: no state makes the machine stop. -/
def Obligations.EveryStepAnswersANextState : Prop :=
  ∀ s : State, ∃ t, step s = .next t

/-- R59, R110, R119, R203: without reset, events are performed in the order they were appended and none is lost, and new events are appended only when all earlier ones have been performed. A reset abandons what is pending and performs nothing. Over every step, resets too, what has been performed stays in the observation, and one event at most joins it (log 2). -/
def Obligations.EventsKeepTheirOrder : Prop :=
  ∀ s t : State, step s = .next t →
    (s.rstN = true → ∃ es, t.events = s.events ++ es ∧ (es ≠ [] → s.pend = []) ∧
      s.trace <+: t.trace ∧ t.trace.length ≤ s.trace.length + 1 ∧ t.past = s.past) ∧
    (s.rstN = false → t.events = [] ∧ t.observation.events = s.observation.events) ∧
    s.observation.events <+: t.observation.events ∧
    t.observation.events.length ≤ s.observation.events.length + 1

/-- R26, R31: `started` and `oe`, once 1, stay 1 over every step without reset, and a reset makes both 0. -/
def Obligations.StartedAndDrivenUntilReset : Prop :=
  ∀ s t : State, step s = .next t →
    (s.rstN = true → (s.started = true → t.started = true) ∧ (s.oe = true → t.oe = true)) ∧
    (s.rstN = false → t.started = false ∧ t.oe = false)

/-- R180: an idle block that is offered no word keeps its whole state in that cycle, whatever its line registers and counters hold, and does so for ever under a host that offers no more words. -/
def Obligations.IdleBlockKeepsItsState : Prop :=
  ∀ s : State, s.Idle →
    (s.rstN = true → s.offered = none → step s = .next { s with host := s.host.tail }) ∧
    (s.hostDone → ∀ k, ∃ h, runFor k s = .next { s with host := h })

/-- R30, R31, R34, R36, R59, R117: the invariant of the lines, counters and startup holds at reset. -/
def Obligations.LineInvariantHoldsAtReset : Prop := State.reset.Inv

/-- R30, R31, R34, R59, R117: every step keeps the invariant of the lines, counters and startup. -/
def Obligations.EveryStepKeepsTheLineInvariant : Prop :=
  ∀ s t : State, s.Inv → step s = .next t → t.Inv

/-- R90, R92: the invariant of the frames holds at reset. -/
def Obligations.FrameInvariantHoldsAtReset : Prop := State.reset.FramesInv

/-- R30, R87-R90, R92, R114: every step keeps it that each complete frame, over every reset, is one BSE may send: a command frame, a write frame, or a run frame to address 0 of at most 65535 nibbles; and that a frame is open exactly while a run is, as a run frame with no more nibbles than a run can have. Frames are read by the observer of log 9 (DEDUCED). -/
def Obligations.EveryStepKeepsTheFrameInvariant : Prop :=
  ∀ s t : State, s.FramesInv → step s = .next t → t.FramesInv

/-- R117: in a step without reset DAT changes only while CS and STB are 0, STB changes only while CS is 0, and CS changes only while STB is 1. -/
def Obligations.LinesChangeOnlyAsFramesAllow : Prop :=
  ∀ s t : State, s.Inv → s.rstN = true → step s = .next t →
    (t.dat ≠ s.dat → s.cs = false ∧ s.stb = false) ∧ (t.stb ≠ s.stb → s.cs = false) ∧
    (t.cs ≠ s.cs → s.stb = true)

/-- R209, R214: an open run whose host offers no more words waits for ever: nothing of the block changes, and it is no end of a run. -/
def Obligations.OpenRunWithoutWordsWaitsForEver : Prop :=
  ∀ (s : State) (k : Nat), s.StuckOpenRun → ∃ t, runFor k s = .next t ∧ t.StuckOpenRun ∧
    ¬ t.Ended ∧ t = { s with host := t.host }

/-! ### The segment buffer -/

/-- R142: setting and then clearing a segment leaves its cell as it was with that bit cleared, so bit-identical if the bit was 0; every other cell is unchanged. -/
def Obligations.SetThenClearLeavesTheBitCleared : Prop :=
  ∀ (i : BitVec 12) (d0 d1 : BitVec 16) (s : State), i.toNat < 160 → d1.getLsbD 0 = true →
    d0.getLsbD 0 = false → ∃ t, execAll [.setseg i d1, .setseg i d0] s = some t ∧
      t.readCell (i.toNat / 4) = s.readCell (i.toNat / 4) &&& ~~~(1#4 <<< (i.toNat % 4)) ∧
      ((s.readCell (i.toNat / 4)).getLsbD (i.toNat % 4) = false →
        t.readCell (i.toNat / 4) = s.readCell (i.toNat / 4)) ∧
      ∀ c, c < 40 → c ≠ i.toNat / 4 → t.readCell c = s.readCell c

/-- R145: from a blank shadow, after any sequence of instructions bit b of cell c is 1 exactly when the last SETSEG with index 4c + b since the last CLRALL had on = 1; no other instruction and no invalid index has a say. -/
def Obligations.ShadowIsTheUnionOfWhatIsOn : Prop :=
  ∀ (is : List Instr) (s t : State), (∀ c, c < 40 → s.readCell c = 0) → execAll is s = some t →
    ∀ c b, c < 40 → b < 4 → (t.readCell c).getLsbD b = lastOn (4 * c + b) false is

/-- R53, R88, R140, R146: m SETSEGs send one write frame of 13 bits for each valid index, in the order of the indices and never coalesced, each to the cell of its index and with its bit as asked, and none for an invalid index; at most m in all. Frames are read by the observer of log 9 (DEDUCED). -/
def Obligations.EachValidSegmentUpdateSendsOneFrame : Prop :=
  ∀ (l : List (BitVec 12 × BitVec 16)) (s : State), openBits s.events = none →
    ∃ t fs, execAll (l.map fun p => .setseg p.1 p.2) s = some t ∧
      framesOf t.events = framesOf s.events ++ fs ∧ openBits t.events = none ∧
      fs.length = (l.filter fun p => decide (p.1.toNat < 160)).length ∧ fs.length ≤ l.length ∧
      List.Forall₂ (fun bs p => bs.length = 13 ∧ bs.take 3 = [true, false, true] ∧
          (bs.drop 3).take 6 = bits (p.1.toNat / 4) 6 ∧
          bs[12 - p.1.toNat % 4]? = some (p.2.getLsbD 0))
        fs (l.filter fun p => decide (p.1.toNat < 160))

/-! ### The controller of the external model -/

/-- R63, R65, R143: once its events are sent, CLRALL has made every cell of the controller and of the shadow 0, whatever was there before. The controller is that of log 10 (DESIGN CHOICE), read by the observer of log 9 (DEDUCED). -/
def Obligations.ClrallRestoresCoherence : Prop :=
  ∀ (a : BitVec 12) (d : BitVec 16) (s : State), openBits s.events = none →
    ∃ t, exec (.clrall a d) s = .next t ∧
      ∀ c, c < 40 → t.Coherent c ∧ t.controller[c]? = some (some 0)

/-- R63, R65, R143, R208: once its events are sent, a valid SETSEG has made its cell coherent, overwriting what a raw write put there; every other cell of the controller and of the shadow is as before. The controller is that of log 10 (DESIGN CHOICE), read by the observer of log 9 (DEDUCED). -/
def Obligations.SetsegRestoresCoherenceOfItsCell : Prop :=
  ∀ (i : BitVec 12) (d : BitVec 16) (s : State), openBits s.events = none → i.toNat < 160 →
    ∃ t, exec (.setseg i d) s = .next t ∧ t.Coherent (i.toNat / 4) ∧
      ∀ c, c < 40 → c ≠ i.toNat / 4 →
        t.controller[c]? = s.controller[c]? ∧ t.readCell c = s.readCell c

/-- R63, R65, R208: WRCELL to a cell below 40 writes the controller and not the shadow: that cell is coherent afterwards exactly when the data equals the shadow's value; every other cell is as before. The controller is that of log 10 (DESIGN CHOICE), read by the observer of log 9 (DEDUCED). -/
def Obligations.RawWriteBypassesTheShadow : Prop :=
  ∀ (a : BitVec 12) (d : BitVec 16) (s : State), openBits s.events = none → a.toNat % 64 < 40 →
    ∃ t, exec (.wrcell a d) s = .next t ∧ t.sh = s.sh ∧
      (t.Coherent (a.toNat % 64) ↔ s.readCell (a.toNat % 64) = BitVec.ofNat 4 d.toNat) ∧
      ∀ c, c < 40 → c ≠ a.toNat % 64 → t.controller[c]? = s.controller[c]?

/-- R63, R65: a run of 1 to 40 nibbles, once sent, has written the controller's cells from 0 on and nothing else, the shadow included. The run is sent as its wire row (DEDUCED, log 8), the controller is that of log 10 (DESIGN CHOICE), read by the observer of log 9 (DEDUCED). -/
def Obligations.RunWritesTheControllerFromCellZero : Prop :=
  ∀ (ds : List Nibble) (s : State), openBits s.events = none → ds ≠ [] → ds.length ≤ 40 →
    ∃ t, exec (.wireRunFrame ds) s = .next t ∧ t.sh = s.sh ∧
      (∀ (k : Nat) (d : Nibble), ds[k]? = some d → t.controller[k]? = some (some d)) ∧
      ∀ c, ds.length ≤ c → c < 40 → t.controller[c]? = s.controller[c]?

/-! ### Whole requests, from the port to the wire -/

/-- R38, R59, R112, R213, R214: an idle block offered a CMD word as the host's last one takes it, sends exactly its command frame, and is at the end of a run after 1 + 38 + 24·HOLD_CYCLES cycles: CS = 1, STB = 1, DAT = 0, BUSY = 0, shadow unchanged. The 1 + is the acceptance in a cycle of its own (DEDUCED, log 3), which R213 does not count; frames are read by the observer of log 9 (DEDUCED). -/
def Obligations.CommandRequestReachesTheWire : Prop :=
  ∀ (s : State) (w : Word), s.Idle → s.oe = true → s.holdCnt = 0 → openBits s.trace = none →
    s.host = [.offer w] → opField w = 0x1 →
    ∃ t, runFor (1 + (38 + 24 * Config.holdCycles)) s = .next t ∧ t.Ended ∧
      framesOf t.trace = framesOf s.trace ++ [cmdBits (BitVec.ofNat 8 (aField w).toNat)] ∧
      t.performed = s.performed ++ frame (cmdBits (BitVec.ofNat 8 (aField w).toNat)) ∧
      t.cs = true ∧ t.stb = true ∧ t.dat = false ∧ t.busy = false ∧ t.sh = s.sh

/-- R38, R59, R140, R143, R213, R214: an idle block offered a valid SETSEG word as the host's last one is at the end of a run after 1 + 41 + 26·HOLD_CYCLES cycles, its segment in the shadow as asked, and the controller known to hold the shadow's value of that cell. The 1 + is the acceptance in a cycle of its own (DEDUCED, log 3), which R213 does not count; the controller is that of log 10 (DESIGN CHOICE), read by the observer of log 9 (DEDUCED). -/
def Obligations.SegmentRequestReachesTheController : Prop :=
  ∀ (s : State) (w : Word), s.Idle → s.oe = true → s.holdCnt = 0 → openBits s.trace = none →
    s.host = [.offer w] → opField w = 0x4 → (aField w).toNat < 160 →
    ∃ t, runFor (1 + (41 + 26 * Config.holdCycles)) s = .next t ∧ t.Ended ∧
      (t.readCell ((aField w).toNat / 4)).getLsbD ((aField w).toNat % 4) = (dField w).getLsbD 0 ∧
      t.Coherent ((aField w).toNat / 4)

/-! ### The assembler -/

/-- R93: a line whose operands fit its request field is the word of its instruction, ignored bits written 0; a data word or a `.word` is the value itself; any other operand is refused. A line is assembled to its word, and `NIB` is refused exactly where no run is open. That any other line within a run is assembled as its word is the model's choice (DESIGN CHOICE, log 12), and so is that `.word` takes values whose OP is not reserved (DESIGN CHOICE, log 19). -/
def Obligations.AssembledLinesDecode : Prop :=
  (∀ c, (c ≤ 0xFFF → ∃ w, AsmLine.toWord (.cmd c) = .ok w ∧
      decodeRequest w = .cmd (BitVec.ofNat 12 c) 0) ∧
    (0xFFF < c → AsmLine.toWord (.cmd c) = .error .operandDoesNotFit)) ∧
  (∀ a d, (a ≤ 0xFFF ∧ d ≤ 0xFFFF → ∃ w, AsmLine.toWord (.wrcell a d) = .ok w ∧
      decodeRequest w = .wrcell (BitVec.ofNat 12 a) (BitVec.ofNat 16 d)) ∧
    (0xFFF < a ∨ 0xFFFF < d → AsmLine.toWord (.wrcell a d) = .error .operandDoesNotFit)) ∧
  (∀ n, (n ≤ 0xFFFF → ∃ w, AsmLine.toWord (.wrrun n) = .ok w ∧
      decodeRequest w = .wrrun 0 (BitVec.ofNat 16 n)) ∧
    (0xFFFF < n → AsmLine.toWord (.wrrun n) = .error .operandDoesNotFit)) ∧
  (∀ d, (d ≤ 0xFFFFFFFF → ∃ w, AsmLine.toWord (.nib d) = .ok w ∧ w.toNat = d ∧
      ∀ owed : BitVec 16, 0 < owed.toNat → classify owed w = .nib w) ∧
    (0xFFFFFFFF < d → AsmLine.toWord (.nib d) = .error .operandDoesNotFit)) ∧
  (∀ i on, (i ≤ 0xFFF ∧ on ≤ 1 → ∃ w, AsmLine.toWord (.setseg i on) = .ok w ∧
      decodeRequest w = .setseg (BitVec.ofNat 12 i) (BitVec.ofNat 16 on)) ∧
    (0xFFF < i ∨ 1 < on → AsmLine.toWord (.setseg i on) = .error .operandDoesNotFit)) ∧
  (∃ w, AsmLine.toWord .clrall = .ok w ∧ decodeRequest w = .clrall 0 0) ∧
  (∀ v, (v ≤ 0xFFFFFFFF → ∃ w, AsmLine.toWord (.word v) = .ok w ∧ w.toNat = v) ∧
    (0xFFFFFFFF < v → AsmLine.toWord (.word v) = .error .operandDoesNotFit)) ∧
  ∀ (owed : BitVec 16) (l : AsmLine) (ls : List AsmLine),
    (l.fitsContext owed = false ↔ (∃ d, l = .nib d) ∧ owed.toNat = 0) ∧
    (l.fitsContext owed = false → assembleFrom owed (l :: ls) = .error .nibOutsideRun) ∧
    (l.fitsContext owed = true →
      (∀ e, l.toWord = .error e → assembleFrom owed (l :: ls) = .error e) ∧
      ∀ w, l.toWord = .ok w → assembleFrom owed [l] = .ok [w] ∧
        ∀ ws, assembleFrom (owedAfter owed w) ls = .ok ws →
          assembleFrom owed (l :: ls) = .ok (w :: ws))

/-- R94, R96, R97: the pseudo-operations stand for the requests the spec names, read back from their words as a stream. That a SETSEGS without an index or a WRRAW without a nibble is legal is the model's choice (DESIGN CHOICE, log 18). -/
def Obligations.PseudoOperationsAreTheirRequests : Prop :=
  (∀ ds : List Nat, ds.length ≤ 0xFFFF → (∀ d ∈ ds, d ≤ 0xFFFFFFFF) →
    ∃ ws, assemble [.wrraw ds] = .ok ws ∧ decodeStream 0 ws =
      .wrrun 0 (BitVec.ofNat 16 ds.length) :: ds.map fun d => .nib (BitVec.ofNat 32 d)) ∧
  (∀ (on : Nat) (is : List Nat), on ≤ 1 → (∀ i ∈ is, i ≤ 0xFFF) →
    ∃ ws, assemble [.setsegs on is] = .ok ws ∧ decodeStream 0 ws =
      is.map fun i => .setseg (BitVec.ofNat 12 i) (BitVec.ofNat 16 on)) ∧
  ∃ ws, assemble [.init] = .ok ws ∧ decodeStream 0 ws =
    [.cmd ((Config.initCmds 0).setWidth 12) 0, .cmd ((Config.initCmds 1).setWidth 12) 0,
      .cmd ((Config.initCmds 2).setWidth 12) 0, .cmd ((Config.initCmds 3).setWidth 12) 0,
      .clrall 0 0]
end

