-- ==== Sys2Proof/Laws/Bits.lean ====
section
/-! SUPPORT. Bit lists and their numbers (R9), the lengths of the frames' bit lists (R87-R89) and the fields of a packed word (R80). -/

namespace Sys2Proof

@[simp] theorem maskTo_toNat {n : Nat} (w : Nat) (v : BitVec n) :
    (maskTo w v).toNat = v.toNat % 2 ^ w := by
  simp [maskTo]

@[simp] theorem bits_length (v w : Nat) : (bits v w).length = w := by
  induction w with
  | zero => rfl
  | succ w ih => simp [bits, ih]

/-- One more bit at the front of a list adds its weight. -/
theorem ofBits_cons (b : Level) (bs : List Level) :
    ofBits (b :: bs) = b.toNat * 2 ^ bs.length + ofBits bs := by
  have key : ∀ (bs : List Level) (n : Nat),
      bs.foldl (fun n b => 2 * n + b.toNat) n = n * 2 ^ bs.length + ofBits bs := by
    intro bs
    induction bs with
    | nil => intro n; simp [ofBits]
    | cons b bs ih =>
      intro n
      have h0 : ofBits (b :: bs) = b.toNat * 2 ^ bs.length + ofBits bs := by
        simp [ofBits, ih b.toNat]
      rw [List.foldl_cons, ih, h0, List.length_cons, pow_succ]
      ring
  rw [show ofBits (b :: bs) = bs.foldl (fun n b => 2 * n + b.toNat) b.toNat by simp [ofBits], key]

/-- `ofBits` undoes `bits`, up to the mask (R7, R9). -/
theorem ofBits_bits (v w : Nat) : ofBits (bits v w) = v % 2 ^ w := by
  induction w with
  | zero => simp [bits, ofBits, Nat.mod_one]
  | succ w ih =>
    rw [bits, ofBits_cons, bits_length, ih, Nat.testBit_eq_decide_div_mod_eq, Nat.pow_succ,
      Nat.mod_mul]
    rcases Nat.mod_two_eq_zero_or_one (v / 2 ^ w) with h | h <;> simp [h, Nat.add_comm]

@[simp] theorem cmdBits_length (c : BitVec 8) : (cmdBits c).length = 12 := by
  simp [cmdBits, prefixCmd]

@[simp] theorem wrBits_length (a : BitVec 6) (d : Nibble) : (wrBits a d).length = 13 := by
  simp [wrBits, prefixWr, Config.addrBits, Config.dataBits]

@[simp] theorem runHdrBits_length : runHdrBits.length = 9 := by simp [runHdrBits, prefixWr]

@[simp] theorem nibBits_length (d : Nibble) : (nibBits d).length = 4 := by simp [nibBits]

theorem nibblesOf_cons (d : Nibble) (bs : List Level) :
    nibblesOf (nibBits d ++ bs) = d :: nibblesOf bs := by
  have h : BitVec.ofNat 4 (ofBits (nibBits d)) = d := by
    rw [nibBits, ofBits_bits]; simp
  simpa [nibBits, bits, nibblesOf] using h

@[simp] theorem nibblesOf_flatMap (ds : List Nibble) : nibblesOf (ds.flatMap nibBits) = ds := by
  induction ds with
  | nil => rfl
  | cons d ds ih => rw [List.flatMap_cons, nibblesOf_cons, ih]

/-- A packed word as a number (R80). -/
theorem packWord_toNat (op : BitVec 4) (a : BitVec 12) (d : BitVec 16) :
    (packWord op a d).toNat = op.toNat * 2 ^ 28 + a.toNat * 2 ^ 16 + d.toNat := by
  have ha := a.isLt
  have hd := d.isLt
  rw [packWord, BitVec.toNat_append, ← Nat.shiftLeft_add_eq_or_of_lt hd, BitVec.toNat_append,
    ← Nat.shiftLeft_add_eq_or_of_lt ha, Nat.shiftLeft_eq, Nat.shiftLeft_eq]
  ring

/-- Every word is packed from its own fields (R80). -/
theorem packWord_fields (w : Word) : packWord (opField w) (aField w) (dField w) = w := by
  apply BitVec.eq_of_toNat_eq
  have := w.isLt
  rw [packWord_toNat, opField, aField, dField, BitVec.extractLsb'_toNat,
    BitVec.extractLsb'_toNat, BitVec.extractLsb'_toNat]
  simp only [Nat.shiftRight_eq_div_pow]
  omega

@[simp] theorem opField_packWord (op : BitVec 4) (a : BitVec 12) (d : BitVec 16) :
    opField (packWord op a d) = op := by
  apply BitVec.eq_of_toNat_eq
  have := op.isLt; have := a.isLt; have := d.isLt
  rw [opField, BitVec.extractLsb'_toNat, packWord_toNat, Nat.shiftRight_eq_div_pow]
  omega

@[simp] theorem aField_packWord (op : BitVec 4) (a : BitVec 12) (d : BitVec 16) :
    aField (packWord op a d) = a := by
  apply BitVec.eq_of_toNat_eq
  have := op.isLt; have := a.isLt; have := d.isLt
  rw [aField, BitVec.extractLsb'_toNat, packWord_toNat, Nat.shiftRight_eq_div_pow]
  omega

@[simp] theorem dField_packWord (op : BitVec 4) (a : BitVec 12) (d : BitVec 16) :
    dField (packWord op a d) = d := by
  apply BitVec.eq_of_toNat_eq
  have := op.isLt; have := a.isLt; have := d.isLt
  rw [dField, BitVec.extractLsb'_toNat, packWord_toNat, Nat.shiftRight_eq_div_pow]
  omega

end Sys2Proof
end

