-- ==== Sys2Proof/Laws/State.lean ====
section
/-! SUPPORT. One lemma per field of State per update, so that no proof unfolds a record update. -/

namespace Sys2Proof.Machine

variable (s : State)

/-! ### emit -/

@[simp] theorem emit_sh (es : List WireEvent) : (s.emit es).sh = s.sh := rfl
@[simp] theorem emit_pend (es : List WireEvent) : (s.emit es).pend = s.pend ++ es := rfl
@[simp] theorem emit_runLeft (es : List WireEvent) : (s.emit es).runLeft = s.runLeft := rfl
@[simp] theorem emit_illegal (es : List WireEvent) : (s.emit es).illegal = s.illegal := rfl
@[simp] theorem emit_started (es : List WireEvent) : (s.emit es).started = s.started := rfl
@[simp] theorem emit_startupCnt (es : List WireEvent) : (s.emit es).startupCnt = s.startupCnt := rfl
@[simp] theorem emit_cs (es : List WireEvent) : (s.emit es).cs = s.cs := rfl
@[simp] theorem emit_stb (es : List WireEvent) : (s.emit es).stb = s.stb := rfl
@[simp] theorem emit_dat (es : List WireEvent) : (s.emit es).dat = s.dat := rfl
@[simp] theorem emit_oe (es : List WireEvent) : (s.emit es).oe = s.oe := rfl
@[simp] theorem emit_holdCnt (es : List WireEvent) : (s.emit es).holdCnt = s.holdCnt := rfl
@[simp] theorem emit_host (es : List WireEvent) : (s.emit es).host = s.host := rfl
@[simp] theorem emit_trace (es : List WireEvent) : (s.emit es).trace = s.trace := rfl
@[simp] theorem emit_past (es : List WireEvent) : (s.emit es).past = s.past := rfl

/-! ### writeCell -/

@[simp] theorem writeCell_sh (c : Nat) (v : Nibble) : (s.writeCell c v).sh = s.sh.setIfInBounds c v := rfl
@[simp] theorem writeCell_pend (c : Nat) (v : Nibble) : (s.writeCell c v).pend = s.pend := rfl
@[simp] theorem writeCell_runLeft (c : Nat) (v : Nibble) : (s.writeCell c v).runLeft = s.runLeft := rfl
@[simp] theorem writeCell_illegal (c : Nat) (v : Nibble) : (s.writeCell c v).illegal = s.illegal := rfl
@[simp] theorem writeCell_started (c : Nat) (v : Nibble) : (s.writeCell c v).started = s.started := rfl
@[simp] theorem writeCell_startupCnt (c : Nat) (v : Nibble) : (s.writeCell c v).startupCnt = s.startupCnt := rfl
@[simp] theorem writeCell_cs (c : Nat) (v : Nibble) : (s.writeCell c v).cs = s.cs := rfl
@[simp] theorem writeCell_stb (c : Nat) (v : Nibble) : (s.writeCell c v).stb = s.stb := rfl
@[simp] theorem writeCell_dat (c : Nat) (v : Nibble) : (s.writeCell c v).dat = s.dat := rfl
@[simp] theorem writeCell_oe (c : Nat) (v : Nibble) : (s.writeCell c v).oe = s.oe := rfl
@[simp] theorem writeCell_holdCnt (c : Nat) (v : Nibble) : (s.writeCell c v).holdCnt = s.holdCnt := rfl
@[simp] theorem writeCell_host (c : Nat) (v : Nibble) : (s.writeCell c v).host = s.host := rfl
@[simp] theorem writeCell_trace (c : Nat) (v : Nibble) : (s.writeCell c v).trace = s.trace := rfl
@[simp] theorem writeCell_past (c : Nat) (v : Nibble) : (s.writeCell c v).past = s.past := rfl

/-! ### clearCells -/

@[simp] theorem clearCells_sh : (s.clearCells).sh = Vector.replicate Config.numCells 0 := rfl
@[simp] theorem clearCells_pend : (s.clearCells).pend = s.pend := rfl
@[simp] theorem clearCells_runLeft : (s.clearCells).runLeft = s.runLeft := rfl
@[simp] theorem clearCells_illegal : (s.clearCells).illegal = s.illegal := rfl
@[simp] theorem clearCells_started : (s.clearCells).started = s.started := rfl
@[simp] theorem clearCells_startupCnt : (s.clearCells).startupCnt = s.startupCnt := rfl
@[simp] theorem clearCells_cs : (s.clearCells).cs = s.cs := rfl
@[simp] theorem clearCells_stb : (s.clearCells).stb = s.stb := rfl
@[simp] theorem clearCells_dat : (s.clearCells).dat = s.dat := rfl
@[simp] theorem clearCells_oe : (s.clearCells).oe = s.oe := rfl
@[simp] theorem clearCells_holdCnt : (s.clearCells).holdCnt = s.holdCnt := rfl
@[simp] theorem clearCells_host : (s.clearCells).host = s.host := rfl
@[simp] theorem clearCells_trace : (s.clearCells).trace = s.trace := rfl
@[simp] theorem clearCells_past : (s.clearCells).past = s.past := rfl

/-! ### setRunLeft -/

@[simp] theorem setRunLeft_sh (n : BitVec 16) : (s.setRunLeft n).sh = s.sh := rfl
@[simp] theorem setRunLeft_pend (n : BitVec 16) : (s.setRunLeft n).pend = s.pend := rfl
@[simp] theorem setRunLeft_runLeft (n : BitVec 16) : (s.setRunLeft n).runLeft = n := rfl
@[simp] theorem setRunLeft_illegal (n : BitVec 16) : (s.setRunLeft n).illegal = s.illegal := rfl
@[simp] theorem setRunLeft_started (n : BitVec 16) : (s.setRunLeft n).started = s.started := rfl
@[simp] theorem setRunLeft_startupCnt (n : BitVec 16) : (s.setRunLeft n).startupCnt = s.startupCnt := rfl
@[simp] theorem setRunLeft_cs (n : BitVec 16) : (s.setRunLeft n).cs = s.cs := rfl
@[simp] theorem setRunLeft_stb (n : BitVec 16) : (s.setRunLeft n).stb = s.stb := rfl
@[simp] theorem setRunLeft_dat (n : BitVec 16) : (s.setRunLeft n).dat = s.dat := rfl
@[simp] theorem setRunLeft_oe (n : BitVec 16) : (s.setRunLeft n).oe = s.oe := rfl
@[simp] theorem setRunLeft_holdCnt (n : BitVec 16) : (s.setRunLeft n).holdCnt = s.holdCnt := rfl
@[simp] theorem setRunLeft_host (n : BitVec 16) : (s.setRunLeft n).host = s.host := rfl
@[simp] theorem setRunLeft_trace (n : BitVec 16) : (s.setRunLeft n).trace = s.trace := rfl
@[simp] theorem setRunLeft_past (n : BitVec 16) : (s.setRunLeft n).past = s.past := rfl

/-! ### raiseIllegal -/

@[simp] theorem raiseIllegal_sh : (s.raiseIllegal).sh = s.sh := rfl
@[simp] theorem raiseIllegal_pend : (s.raiseIllegal).pend = s.pend := rfl
@[simp] theorem raiseIllegal_runLeft : (s.raiseIllegal).runLeft = s.runLeft := rfl
@[simp] theorem raiseIllegal_illegal : (s.raiseIllegal).illegal = true := rfl
@[simp] theorem raiseIllegal_started : (s.raiseIllegal).started = s.started := rfl
@[simp] theorem raiseIllegal_startupCnt : (s.raiseIllegal).startupCnt = s.startupCnt := rfl
@[simp] theorem raiseIllegal_cs : (s.raiseIllegal).cs = s.cs := rfl
@[simp] theorem raiseIllegal_stb : (s.raiseIllegal).stb = s.stb := rfl
@[simp] theorem raiseIllegal_dat : (s.raiseIllegal).dat = s.dat := rfl
@[simp] theorem raiseIllegal_oe : (s.raiseIllegal).oe = s.oe := rfl
@[simp] theorem raiseIllegal_holdCnt : (s.raiseIllegal).holdCnt = s.holdCnt := rfl
@[simp] theorem raiseIllegal_host : (s.raiseIllegal).host = s.host := rfl
@[simp] theorem raiseIllegal_trace : (s.raiseIllegal).trace = s.trace := rfl
@[simp] theorem raiseIllegal_past : (s.raiseIllegal).past = s.past := rfl

/-! ### retire -/

@[simp] theorem retire_sh (e : WireEvent) (rest : List WireEvent) : (s.retire e rest).sh = s.sh := rfl
@[simp] theorem retire_pend (e : WireEvent) (rest : List WireEvent) : (s.retire e rest).pend = rest := rfl
@[simp] theorem retire_runLeft (e : WireEvent) (rest : List WireEvent) : (s.retire e rest).runLeft = s.runLeft := rfl
@[simp] theorem retire_illegal (e : WireEvent) (rest : List WireEvent) : (s.retire e rest).illegal = s.illegal := rfl
@[simp] theorem retire_started (e : WireEvent) (rest : List WireEvent) : (s.retire e rest).started = s.started := rfl
@[simp] theorem retire_startupCnt (e : WireEvent) (rest : List WireEvent) : (s.retire e rest).startupCnt = s.startupCnt := rfl
@[simp] theorem retire_cs (e : WireEvent) (rest : List WireEvent) : (s.retire e rest).cs = s.cs := rfl
@[simp] theorem retire_stb (e : WireEvent) (rest : List WireEvent) : (s.retire e rest).stb = s.stb := rfl
@[simp] theorem retire_dat (e : WireEvent) (rest : List WireEvent) : (s.retire e rest).dat = s.dat := rfl
@[simp] theorem retire_oe (e : WireEvent) (rest : List WireEvent) : (s.retire e rest).oe = s.oe := rfl
@[simp] theorem retire_holdCnt (e : WireEvent) (rest : List WireEvent) : (s.retire e rest).holdCnt = s.holdCnt := rfl
@[simp] theorem retire_host (e : WireEvent) (rest : List WireEvent) : (s.retire e rest).host = s.host := rfl
@[simp] theorem retire_trace (e : WireEvent) (rest : List WireEvent) : (s.retire e rest).trace = s.trace ++ [e] := rfl
@[simp] theorem retire_past (e : WireEvent) (rest : List WireEvent) : (s.retire e rest).past = s.past := rfl

/-! ### hostNext -/

@[simp] theorem hostNext_sh : (s.hostNext).sh = s.sh := rfl
@[simp] theorem hostNext_pend : (s.hostNext).pend = s.pend := rfl
@[simp] theorem hostNext_runLeft : (s.hostNext).runLeft = s.runLeft := rfl
@[simp] theorem hostNext_illegal : (s.hostNext).illegal = s.illegal := rfl
@[simp] theorem hostNext_started : (s.hostNext).started = s.started := rfl
@[simp] theorem hostNext_startupCnt : (s.hostNext).startupCnt = s.startupCnt := rfl
@[simp] theorem hostNext_cs : (s.hostNext).cs = s.cs := rfl
@[simp] theorem hostNext_stb : (s.hostNext).stb = s.stb := rfl
@[simp] theorem hostNext_dat : (s.hostNext).dat = s.dat := rfl
@[simp] theorem hostNext_oe : (s.hostNext).oe = s.oe := rfl
@[simp] theorem hostNext_holdCnt : (s.hostNext).holdCnt = s.holdCnt := rfl
@[simp] theorem hostNext_host : (s.hostNext).host = s.host.tail := rfl
@[simp] theorem hostNext_trace : (s.hostNext).trace = s.trace := rfl
@[simp] theorem hostNext_past : (s.hostNext).past = s.past := rfl

/-! ### takeReset -/

@[simp] theorem takeReset_sh : s.takeReset.sh = State.reset.sh := rfl
@[simp] theorem takeReset_pend : s.takeReset.pend = State.reset.pend := rfl
@[simp] theorem takeReset_runLeft : s.takeReset.runLeft = State.reset.runLeft := rfl
@[simp] theorem takeReset_illegal : s.takeReset.illegal = State.reset.illegal := rfl
@[simp] theorem takeReset_started : s.takeReset.started = State.reset.started := rfl
@[simp] theorem takeReset_startupCnt : s.takeReset.startupCnt = State.reset.startupCnt := rfl
@[simp] theorem takeReset_cs : s.takeReset.cs = State.reset.cs := rfl
@[simp] theorem takeReset_stb : s.takeReset.stb = State.reset.stb := rfl
@[simp] theorem takeReset_dat : s.takeReset.dat = State.reset.dat := rfl
@[simp] theorem takeReset_oe : s.takeReset.oe = State.reset.oe := rfl
@[simp] theorem takeReset_holdCnt : s.takeReset.holdCnt = State.reset.holdCnt := rfl
@[simp] theorem takeReset_host : s.takeReset.host = s.host.tail := rfl
@[simp] theorem takeReset_trace : s.takeReset.trace = State.reset.trace := rfl
@[simp] theorem takeReset_past : s.takeReset.past = s.spans := rfl

/-! ### setLine -/

@[simp] theorem setLine_sh (l : Line) (b : Level) : (s.setLine l b).sh = s.sh := by
  cases l <;> rfl
@[simp] theorem setLine_pend (l : Line) (b : Level) : (s.setLine l b).pend = s.pend := by
  cases l <;> rfl
@[simp] theorem setLine_runLeft (l : Line) (b : Level) : (s.setLine l b).runLeft = s.runLeft := by
  cases l <;> rfl
@[simp] theorem setLine_illegal (l : Line) (b : Level) : (s.setLine l b).illegal = s.illegal := by
  cases l <;> rfl
@[simp] theorem setLine_started (l : Line) (b : Level) : (s.setLine l b).started = s.started := by
  cases l <;> rfl
@[simp] theorem setLine_startupCnt (l : Line) (b : Level) : (s.setLine l b).startupCnt = s.startupCnt := by
  cases l <;> rfl
@[simp] theorem setLine_cs (l : Line) (b : Level) :
    (s.setLine l b).cs = if l = .cs then b else s.cs := by cases l <;> rfl
@[simp] theorem setLine_stb (l : Line) (b : Level) :
    (s.setLine l b).stb = if l = .stb then b else s.stb := by cases l <;> rfl
@[simp] theorem setLine_dat (l : Line) (b : Level) :
    (s.setLine l b).dat = if l = .dat then b else s.dat := by cases l <;> rfl
@[simp] theorem setLine_oe (l : Line) (b : Level) : (s.setLine l b).oe = s.oe := by
  cases l <;> rfl
@[simp] theorem setLine_holdCnt (l : Line) (b : Level) : (s.setLine l b).holdCnt = s.holdCnt := by
  cases l <;> rfl
@[simp] theorem setLine_host (l : Line) (b : Level) : (s.setLine l b).host = s.host := by
  cases l <;> rfl
@[simp] theorem setLine_trace (l : Line) (b : Level) : (s.setLine l b).trace = s.trace := by
  cases l <;> rfl
@[simp] theorem setLine_past (l : Line) (b : Level) : (s.setLine l b).past = s.past := by
  cases l <;> rfl

/-! ### updateSegment -/

@[simp] theorem updateSegment_sh (i : Nat) (on : Bool) : (s.updateSegment i on).sh =
    s.sh.setIfInBounds (cellOf i) (updateBit (s.readCell (cellOf i)) (bitOf i) on) := rfl
@[simp] theorem updateSegment_runLeft (i : Nat) (on : Bool) :
    (s.updateSegment i on).runLeft = s.runLeft := rfl
@[simp] theorem updateSegment_illegal (i : Nat) (on : Bool) :
    (s.updateSegment i on).illegal = s.illegal := rfl
@[simp] theorem updateSegment_started (i : Nat) (on : Bool) :
    (s.updateSegment i on).started = s.started := rfl
@[simp] theorem updateSegment_startupCnt (i : Nat) (on : Bool) :
    (s.updateSegment i on).startupCnt = s.startupCnt := rfl
@[simp] theorem updateSegment_cs (i : Nat) (on : Bool) :
    (s.updateSegment i on).cs = s.cs := rfl
@[simp] theorem updateSegment_stb (i : Nat) (on : Bool) :
    (s.updateSegment i on).stb = s.stb := rfl
@[simp] theorem updateSegment_dat (i : Nat) (on : Bool) :
    (s.updateSegment i on).dat = s.dat := rfl
@[simp] theorem updateSegment_oe (i : Nat) (on : Bool) :
    (s.updateSegment i on).oe = s.oe := rfl
@[simp] theorem updateSegment_holdCnt (i : Nat) (on : Bool) :
    (s.updateSegment i on).holdCnt = s.holdCnt := rfl
@[simp] theorem updateSegment_host (i : Nat) (on : Bool) :
    (s.updateSegment i on).host = s.host := rfl
@[simp] theorem updateSegment_trace (i : Nat) (on : Bool) :
    (s.updateSegment i on).trace = s.trace := rfl
@[simp] theorem updateSegment_past (i : Nat) (on : Bool) :
    (s.updateSegment i on).past = s.past := rfl

/-! ### Reading a cell after an update -/

@[simp] theorem emit_readCell (es : List WireEvent) (c : Nat) :
    (s.emit es).readCell c = s.readCell c := rfl

@[simp] theorem clearCells_readCell (c : Nat) : s.clearCells.readCell c = 0 := by
  simp only [State.readCell, clearCells_sh]
  by_cases h : c < Config.numCells
  · rw [Vector.getElem?_eq_getElem h]; simp
  · rw [Vector.getElem?_eq_none (by omega)]; rfl

/-- A cell read after a write to it gives the value written (R22). -/
theorem readCell_writeCell_self {c : Nat} (h : c < Config.numCells) (v : Nibble) :
    (s.writeCell c v).readCell c = v := by
  simp [State.readCell, h]

/-- A write to a cell leaves every other cell alone (R53). -/
theorem readCell_writeCell_ne {c c' : Nat} (h : c ≠ c') (v : Nibble) :
    (s.writeCell c v).readCell c' = s.readCell c' := by
  simp [State.readCell, h]

/-- An index below 160 has its cell, another has none (R52). -/
theorem cellOf_lt_iff (i : Nat) : cellOf i < Config.numCells ↔ i < 160 := by
  simp only [cellOf, Config.numCells]
  omega

theorem indexValid_eq (i : Nat) : indexValid i = decide (i < 160) := by
  simp only [indexValid, cellOf_lt_iff]

/-- Bit `b` becomes what was asked for, every other bit stays (R53). -/
theorem updateBit_getLsbD (v : Nibble) (on : Bool) {b k : Nat} (hb : b < 4) (hk : k < 4) :
    (updateBit v b on).getLsbD k = if k = b then on else v.getLsbD k := by
  interval_cases b <;> interval_cases k <;> cases on <;> revert v <;> decide

/-- The frame of a valid segment update carries the whole new cell value (R140). -/
theorem updateSegment_pend {i : Nat} (h : cellOf i < Config.numCells) (on : Bool) :
    (s.updateSegment i on).pend = s.pend ++ frame (wrBits (BitVec.ofNat 6 (cellOf i))
      (updateBit (s.readCell (cellOf i)) (bitOf i) on)) := by
  simp [State.updateSegment, readCell_writeCell_self s h]

end Sys2Proof.Machine
end

