-- ==== Sys2Proof/Laws/Ops.lean ====
section
/-! SUPPORT. Everything each shared operation can do, said once: the block step, startup, the port, one cycle, one step. -/

namespace Sys2Proof.Machine

/-! ### Configuration -/

theorem holdCycles_pos : 0 < Config.holdCycles := Nat.succ_pos _

/-- HOLD_CYCLES covers T_HOLD at F_CLK (R5, R116). -/
theorem holdCycles_covers_tHold : Config.tHold * Config.fClk ≤ (Config.holdCycles : NNRat) := by
  have hpos : (0 : NNRat) < Config.tHold + Config.holdSlack :=
    add_pos_of_pos_of_nonneg (add_pos_of_pos_of_nonneg (by norm_num) zero_le) zero_le
  rw [Config.fClk, ← mul_div_assoc, div_le_iff₀ hpos, mul_comm]
  exact mul_le_mul_of_nonneg_left (le_add_of_nonneg_right zero_le) zero_le

theorem startupCycles_pos : 0 < Config.startupCycles := Nat.succ_pos _

/-! ### Events -/

@[simp] theorem bitEv_length (b : Level) : (bitEv b).length = 5 := rfl

@[simp] theorem bitsEv_nil : bitsEv [] = [] := rfl

@[simp] theorem bitsEv_cons (b : Level) (bs : List Level) : bitsEv (b :: bs) = bitEv b ++ bitsEv bs :=
  rfl

@[simp] theorem bitsEv_append (bs cs : List Level) : bitsEv (bs ++ cs) = bitsEv bs ++ bitsEv cs := by
  simp [bitsEv]

theorem bitsEv_length (bs : List Level) : (bitsEv bs).length = 5 * bs.length := by
  induction bs with
  | nil => rfl
  | cons b bs ih => simp [ih]; omega

@[simp] theorem cyclesOf_append (es fs : List WireEvent) :
    cyclesOf (es ++ fs) = cyclesOf es + cyclesOf fs := by simp [cyclesOf]

theorem cyclesOf_bitsEv (bs : List Level) :
    cyclesOf (bitsEv bs) = bs.length * (3 + 2 * Config.holdCycles) := by
  induction bs with
  | nil => simp [cyclesOf]
  | cons b bs ih =>
    rw [bitsEv_cons, cyclesOf_append, ih, List.length_cons]
    simp [cyclesOf, bitEv, eventCycles]
    ring

/-! ### The block step and startup -/

/-- What the block step can do (R110). -/
theorem blockStep_cases (s : State) :
    ((s.oe = false ∨ s.pend = []) ∧ s.blockStep = s) ∨
    (∃ l b rest, s.oe = true ∧ s.pend = .set l b :: rest ∧
      s.blockStep = (s.setLine l b).retire (.set l b) rest) ∨
    (∃ rest, s.oe = true ∧ s.pend = .hold :: rest ∧ s.holdCnt + 1 = Config.holdCycles ∧
      s.blockStep = { s.retire .hold rest with holdCnt := 0 }) ∨
    (∃ rest, s.oe = true ∧ s.pend = .hold :: rest ∧ s.holdCnt + 1 ≠ Config.holdCycles ∧
      s.blockStep = { s with holdCnt := s.holdCnt + 1 }) := by
  cases hoe : s.oe with
  | false => left; simp [State.blockStep, hoe]
  | true =>
    cases hp : s.pend with
    | nil => left; simp [State.blockStep, hoe, hp]
    | cons e rest =>
      right
      cases e with
      | set l b => left; exact ⟨l, b, rest, rfl, rfl, by simp [State.blockStep, hoe, hp, State.perform]⟩
      | hold =>
        right
        by_cases h : s.holdCnt + 1 = Config.holdCycles
        · left; exact ⟨rest, rfl, rfl, h, by simp [State.blockStep, hoe, hp, State.perform, h]⟩
        · right; exact ⟨rest, rfl, rfl, h, by simp [State.blockStep, hoe, hp, State.perform, h]⟩

/-- What startup can do (R31, R201). -/
theorem startupStep_cases (s : State) :
    (s.started = true ∧ s.startupStep = s) ∨
    (s.started = false ∧ s.startupCnt + 1 = Config.startupCycles ∧ s.startupStep =
      { s with startupCnt := s.startupCnt + 1, oe := true, started := true }) ∨
    (s.started = false ∧ s.startupCnt + 1 ≠ Config.startupCycles ∧ s.startupStep =
      { s with startupCnt := s.startupCnt + 1 }) := by
  cases h : s.started with
  | true => left; simp [State.startupStep, h]
  | false =>
    right
    by_cases hc : s.startupCnt + 1 = Config.startupCycles
    · left; simp [State.startupStep, h, hc]
    · right; simp [State.startupStep, h, hc]

/-! ### The port -/

/-- A cycle without acceptance changes nothing but the host's script. -/
theorem hostWait_eq (s : State) : ∃ h, s.hostWait = { s with host := h } := by
  unfold State.hostWait
  split
  · exact ⟨_, rfl⟩
  · exact ⟨s.host, rfl⟩

/-- An offered word stays offered (R205). -/
theorem hostWait_of_offer {s : State} {w : Word} {h : List HostAct} (hs : s.host = .offer w :: h) :
    s.hostWait = s := by
  simp [State.hostWait, hs]

theorem hostWait_of_nil {s : State} (hs : s.host = []) : s.hostWait = s := by
  simp [State.hostWait, hs]

/-- What the edge finds, and when (R38, R200). -/
theorem edge_cases (s : State) :
    (s.edge = .inReset ∧ s.rstN = false) ∨
    (∃ w h, s.edge = .accept w ∧ s.host = .offer w :: h ∧ s.rstN = true ∧ s.started = true ∧
      s.pend = []) ∨
    (s.edge = .run ∧ s.rstN = true) := by
  cases hh : s.host with
  | nil => right; right; simp [State.edge, State.rstN, State.offered, hh]
  | cons a h =>
    cases a with
    | reset => left; simp [State.edge, State.rstN, hh]
    | idle => right; right; simp [State.edge, State.rstN, State.offered, hh]
    | offer w =>
      right
      by_cases hr : s.reqReady = true
      · left
        have h2 : s.started = true ∧ s.pend = [] := by
          simpa [State.reqReady, State.rstN, hh] using hr
        exact ⟨w, h, by simp [State.edge, State.rstN, State.offered, hh, hr], rfl,
          by simp [State.rstN, hh], h2.1, h2.2⟩
      · right; simp [State.edge, State.rstN, State.offered, hh, hr]

/-- What one step is, for each thing the edge can find. -/
theorem step_cases (s : State) :
    (s.rstN = false ∧ step s = .next s.takeReset) ∨
    (∃ w h, s.host = .offer w :: h ∧ s.rstN = true ∧ s.started = true ∧ s.pend = [] ∧
      step s = exec (classify s.runLeft w) { s with host := h }) ∨
    (s.rstN = true ∧ s.edge = .run ∧ step s = .next s.runCycle) := by
  rcases edge_cases s with ⟨he, hr⟩ | ⟨w, h, he, hh, hr, hst, hp⟩ | ⟨he, hr⟩
  · left; exact ⟨hr, by simp [step, he]⟩
  · right; left
    exact ⟨w, h, hh, hr, hst, hp, by simp [step, he, State.hostNext, hh]⟩
  · right; right; exact ⟨hr, he, by simp [step, he]⟩

/-! ### Instructions -/

/-- What a data word does (R33, R115). -/
theorem exec_nib (w : Word) (s : State) : exec (.nib w) s =
    if s.runLeft.toNat = 0 then .fault .nibOutsideRun
    else .next { s with
      runLeft := s.runLeft - 1
      pend := s.pend ++ bitsEv (nibBits (nibOperand w)) ++
        (if s.runLeft.toNat = 1 then [.set .cs true] else []) } := by
  by_cases h0 : s.runLeft.toNat = 0
  · simp only [exec, execNib, h0, if_true]
  · have hlt := s.runLeft.isLt
    have h1 : (s.runLeft - 1).toNat = 0 ↔ s.runLeft.toNat = 1 := by
      rw [BitVec.toNat_sub]; simp; omega
    by_cases hl : s.runLeft.toNat = 1
    · simp only [exec, execNib, h1.mpr hl, if_true, hl]
      simp [State.emit, State.setRunLeft]
    · simp only [exec, execNib, h0, if_false, mt h1.mp hl, hl]
      simp [State.emit, State.setRunLeft]

/-- What WRRUN does (R114). -/
theorem exec_wrrun (a : BitVec 12) (d : BitVec 16) (s : State) : exec (.wrrun a d) s =
    .next { s with
      runLeft := if d.toNat = 0 then s.runLeft else d
      pend := s.pend ++ runOpening ++ (if d.toNat = 0 then [.set .cs true] else []) } := by
  by_cases h : d.toNat = 0 <;>
    simp [exec, execWrrun, countOperand, h, State.emit, State.setRunLeft]

/-- What SETSEG does (R140). -/
theorem exec_setseg (a : BitVec 12) (d : BitVec 16) (s : State) : exec (.setseg a d) s =
    .next (if a.toNat < 160 then s.updateSegment a.toNat (d.getLsbD 0) else s) := by
  simp [exec, execSetseg, indexValid_eq, indexOperand, onOperand]

/-- Events of one frame, and their cycles (R111, R213). -/
theorem cyclesOf_frame (bs : List Level) :
    cyclesOf (frame bs) = 2 + bs.length * (3 + 2 * Config.holdCycles) := by
  rw [frame, ← List.singleton_append, cyclesOf_append, cyclesOf_append, cyclesOf_bitsEv]
  simp [cyclesOf, eventCycles]
  omega

end Sys2Proof.Machine
end

