-- ==== Sys2Proof/Laws/Wire.lean ====
section
/-! SUPPORT. What an observer reads off bits and frames (R92), and what they are as line activity (R111, R117). -/

namespace Sys2Proof.Machine

theorem observe_append (es fs : List WireEvent) :
    observe (es ++ fs) = fs.foldl Observer.see (observe es) := by simp [observe]

/-- Bits sent within an open frame are read in order (R111). -/
theorem see_bitsEv (bs : List Level) (cur : List Level) (fr : List (List Level)) :
    (bitsEv bs).foldl Observer.see { current := some cur, complete := fr } =
      { current := some (cur ++ bs), complete := fr } := by
  induction bs generalizing cur with
  | nil => simp
  | cons b bs ih =>
    rw [bitsEv_cons, List.foldl_append]
    have : (bitEv b).foldl Observer.see { current := some cur, complete := fr } =
        { current := some (cur ++ [b]), complete := fr } := rfl
    rw [this, ih]
    simp

/-- A frame sent where none is open is read whole (R92). -/
theorem see_frame (bs : List Level) (fr : List (List Level)) :
    (frame bs).foldl Observer.see { current := none, complete := fr } =
      { current := none, complete := fr ++ [bs] } := by
  simp only [frame, List.foldl_cons, List.foldl_append]
  rw [show Observer.see { current := none, complete := fr } (.set .cs false) =
    { current := some [], complete := fr } from rfl, see_bitsEv]
  simp [Observer.see]

/-- Whole frames, one after the other, are read one after the other (R59, R92). -/
theorem see_frames (fs : List (List Level)) (fr : List (List Level)) :
    (fs.flatMap frame).foldl Observer.see { current := none, complete := fr } =
      { current := none, complete := fr ++ fs } := by
  induction fs generalizing fr with
  | nil => simp
  | cons f fs ih => simp [see_frame, ih]

theorem framesOf_append_frame {es : List WireEvent} (h : openBits es = none) (bs : List Level) :
    framesOf (es ++ frame bs) = framesOf es ++ [bs] ∧ openBits (es ++ frame bs) = none := by
  have : observe es = { current := none, complete := (observe es).complete } := by
    rw [openBits] at h; rw [← h]
  rw [framesOf, openBits, observe_append, this, see_frame]
  exact ⟨rfl, rfl⟩

/-- What has been read whole stays read (R92). -/
theorem see_complete (es : List WireEvent) (o : Observer) :
    o.complete <+: (es.foldl Observer.see o).complete := by
  induction es generalizing o with
  | nil => exact List.prefix_refl _
  | cons e es ih =>
    refine List.IsPrefix.trans ?_ (ih (o.see e))
    unfold Observer.see
    split
    · exact List.prefix_refl _
    · split
      · exact List.prefix_append _ _
      · exact List.prefix_refl _
    all_goals exact List.prefix_refl _

/-- The frames among the first events are the first frames (R92). -/
theorem framesOf_prefix (es fs : List WireEvent) : framesOf es <+: framesOf (es ++ fs) := by
  rw [framesOf, framesOf, observe_append]
  exact see_complete fs _

/-- Where no frame is open, one more frame is one more frame received (R65). -/
theorem controllerAfter_frame {es : List WireEvent} (h : openBits es = none) (bs : List Level) :
    controllerAfter (es ++ frame bs) = (controllerAfter es).receive bs := by
  obtain ⟨a, b⟩ := framesOf_append_frame h bs
  simp [controllerAfter, h, b, a]

/-- What a stretch of written cells is, and that the others stay (R65). -/
theorem writeFrom_getElem? (ds : List Nibble) (C : Controller) (k : Nat) (hk : k + ds.length ≤ 64) :
    (∀ (j : Nat) (d : Nibble), ds[j]? = some d → (C.writeFrom k ds)[k + j]? = some (some d)) ∧
    ∀ c, (c < k ∨ k + ds.length ≤ c) → (C.writeFrom k ds)[c]? = C[c]? := by
  induction ds generalizing C k with
  | nil => simp [Controller.writeFrom]
  | cons d ds ih =>
    simp only [List.length_cons] at hk
    obtain ⟨a, b⟩ := ih (C.setIfInBounds k (some d)) (k + 1) (by omega)
    constructor
    · intro j d' hj
      cases j with
      | zero =>
        have hk' : k < 64 := by omega
        simp only [List.getElem?_cons_zero, Option.some.injEq] at hj
        subst hj
        have hb := b k (.inl (by omega))
        simpa [Controller.writeFrom, hk'] using hb
      | succ j =>
        rw [Controller.writeFrom, show k + (j + 1) = k + 1 + j by omega]
        exact a j d' (by simpa using hj)
    · intro c hc
      simp only [List.length_cons] at hc
      rw [Controller.writeFrom, b c (by omega), Vector.getElem?_setIfInBounds, if_neg (by omega)]

theorem levelAfter_append (l : Line) (b : Level) (es fs : List WireEvent) :
    levelAfter l b (es ++ fs) = levelAfter l (levelAfter l b es) fs := by
  induction es generalizing b with
  | nil => rfl
  | cons e es ih => cases e <;> simp [levelAfter, ih]

/-- Legality of two stretches of activity, one after the other. -/
theorem legalFrom_append (cs stb : Level) (es fs : List WireEvent) :
    legalFrom cs stb (es ++ fs) =
      (legalFrom cs stb es && legalFrom (levelAfter .cs cs es) (levelAfter .stb stb es) fs) := by
  induction es generalizing cs stb with
  | nil => simp [legalFrom, levelAfter]
  | cons e es ih =>
    cases e with
    | hold => simp [legalFrom, levelAfter, ih, Bool.and_assoc]
    | set l b => cases l <;> simp [legalFrom, levelAfter, ih, Bool.and_assoc]

/-- Bits are legal within a frame that rests with STB = 1, and leave it so (R111, R117). -/
theorem legalFrom_bitsEv (bs : List Level) : legalFrom false true (bitsEv bs) = true ∧
    levelAfter .cs false (bitsEv bs) = false ∧ levelAfter .stb true (bitsEv bs) = true := by
  induction bs with
  | nil => exact ⟨rfl, rfl, rfl⟩
  | cons b bs ih =>
    rw [bitsEv_cons, legalFrom_append, levelAfter_append, levelAfter_append]
    have h1 : legalFrom false true (bitEv b) = true := by cases b <;> rfl
    have h2 : levelAfter .cs false (bitEv b) = false := by cases b <;> rfl
    have h3 : levelAfter .stb true (bitEv b) = true := by cases b <;> rfl
    rw [h1, h2, h3]
    exact ⟨by simp [ih.1], ih.2.1, ih.2.2⟩

/-- A frame is legal where none is open, and leaves CS = 1 and STB = 1 (R117). -/
theorem legalFrom_frame (bs : List Level) : legalFrom true true (frame bs) = true ∧
    levelAfter .cs true (frame bs) = true ∧ levelAfter .stb true (frame bs) = true := by
  obtain ⟨h1, h2, h3⟩ := legalFrom_bitsEv bs
  refine ⟨?_, ?_, ?_⟩
  · simp [frame, legalFrom, legalFrom_append, h1, h2, h3]
  · simp [frame, levelAfter, levelAfter_append]
  · simp [frame, levelAfter, levelAfter_append, h3]

end Sys2Proof.Machine
end

