-- ==== Sys2Proof/Laws/Run.lean ====
section
/-! SUPPORT. Runs of several steps (R214), and a step while the host waits (R205). -/

namespace Sys2Proof.Machine

theorem runFor_zero (s : State) : runFor 0 s = .next s := rfl

theorem runFor_succ (k : Nat) (s : State) : runFor (k + 1) s =
    (match step s with
      | .next t => runFor k t
      | .fault r => .fault r
      | .refused r => .refused r) := by
  unfold runFor
  simp only [Host.Core.run, show Sys2Proof.core.step s = step s from rfl]
  generalize step s = o
  cases o <;> rfl

theorem runFor_succ_of_next {s t : State} (h : step s = .next t) (k : Nat) :
    runFor (k + 1) s = runFor k t := by rw [runFor_succ, h]

theorem runFor_one_of_next {s t : State} (h : step s = .next t) : runFor 1 s = .next t := by
  rw [show (1 : Nat) = 0 + 1 from rfl, runFor_succ_of_next h, runFor_zero]

/-- A run goes on from where its first part ends. -/
theorem runFor_add {m : Nat} {s t : State} (h : runFor m s = .next t) (n : Nat) :
    runFor (m + n) s = runFor n t := by
  induction m generalizing s with
  | zero => cases h; rw [Nat.zero_add]
  | succ m ih =>
    rw [Nat.add_right_comm]
    rw [runFor_succ] at h ⊢
    split at h
    · exact ih h
    · cases h
    · cases h

/-- A steady host leaves its script as it is (R205). -/
theorem hostWait_of_steady {s : State} (h : s.hostSteady) : s.hostWait = s := by
  rcases h with h | ⟨w, h', h⟩
  · exact hostWait_of_nil h
  · exact hostWait_of_offer h

theorem rstN_of_steady {s : State} (h : s.hostSteady) : s.rstN = true := by
  rcases h with h | ⟨w, h', h⟩ <;> simp [State.rstN, h]

theorem blockStep_host (s : State) : s.blockStep.host = s.host := by
  rcases blockStep_cases s with ⟨_, e⟩ | ⟨_, _, _, _, _, e⟩ | ⟨_, _, _, _, e⟩ | ⟨_, _, _, _, e⟩ <;>
    rw [e] <;> simp

theorem startupStep_host (s : State) : s.startupStep.host = s.host := by
  rcases startupStep_cases s with ⟨_, e⟩ | ⟨_, _, e⟩ | ⟨_, _, e⟩ <;> rw [e]

/-- What the block step leaves alone: the events keep their order, and one of them at most is performed (R59, R110). -/
theorem blockStep_keeps (s : State) : s.blockStep.events = s.events ∧ s.blockStep.sh = s.sh ∧
    s.blockStep.runLeft = s.runLeft ∧ s.blockStep.illegal = s.illegal ∧
    s.blockStep.started = s.started ∧ s.blockStep.startupCnt = s.startupCnt ∧
    s.blockStep.oe = s.oe ∧ s.trace <+: s.blockStep.trace ∧
    s.blockStep.trace.length ≤ s.trace.length + 1 ∧ s.blockStep.past = s.past := by
  rcases blockStep_cases s with ⟨_, e⟩ | ⟨_, _, _, _, hp, e⟩ | ⟨_, _, hp, _, e⟩ | ⟨_, _, hp, _, e⟩ <;>
    rw [e] <;> simp [State.events, *]

/-- The block step does not look at the host (R110). -/
theorem blockStep_withHost (s : State) (h : List HostAct) :
    ({ s with host := h } : State).blockStep = { s.blockStep with host := h } := by
  unfold State.blockStep
  simp only
  split
  · rename_i e rest _ _
    cases e with
    | set l b => cases l <;> rfl
    | hold => simp only [State.perform]; split <;> rfl
  · rfl

/-- Startup touches its counter, `oe` and `started` only (R201). -/
theorem startupStep_eq (s : State) : s.startupStep = { s with
    startupCnt := s.startupStep.startupCnt
    oe := s.startupStep.oe
    started := s.startupStep.started } := by
  rcases startupStep_cases s with ⟨_, e⟩ | ⟨_, _, e⟩ | ⟨_, _, e⟩ <;> rw [e]

/-- Startup does not look at the host (R201). -/
theorem startupStep_withHost (s : State) (h : List HostAct) :
    ({ s with host := h } : State).startupStep = { s.startupStep with host := h } := by
  unfold State.startupStep
  simp only
  split
  · rfl
  · split <;> rfl

/-- What a cycle without acceptance leaves alone (R59). -/
theorem runCycle_keeps (s : State) : s.runCycle.events = s.events ∧ s.runCycle.sh = s.sh ∧
    s.runCycle.runLeft = s.runLeft ∧ s.runCycle.illegal = s.illegal ∧
    s.trace <+: s.runCycle.trace ∧ s.runCycle.trace.length ≤ s.trace.length + 1 ∧
    s.runCycle.past = s.past := by
  obtain ⟨h, e⟩ := hostWait_eq s.blockStep.startupStep
  obtain ⟨a1, a2, a3, a4, _, _, _, a5, a6, a7⟩ := blockStep_keeps s
  rw [State.runCycle, e, startupStep_eq]
  exact ⟨a1, a2, a3, a4, a5, a6, a7⟩

/-- A cycle without acceptance leaves `started` and `oe` as they are, or sets them (R26, R31). -/
theorem runCycle_started (s : State) : (s.started = true → s.runCycle.started = true) ∧
    (s.oe = true → s.runCycle.oe = true) := by
  obtain ⟨h, e⟩ := hostWait_eq s.blockStep.startupStep
  obtain ⟨_, _, _, _, a1, _, a2, _⟩ := blockStep_keeps s
  rw [State.runCycle, e]
  rcases startupStep_cases s.blockStep with ⟨_, e'⟩ | ⟨_, _, e'⟩ | ⟨_, _, e'⟩ <;>
    rw [e'] <;> simp [a1, a2]

/-- A cycle of the idle block passes, and changes nothing but the host's script (R180). -/
theorem runCycle_of_idle {s : State} (h : s.Idle) : ∃ hs, s.runCycle = { s with host := hs } := by
  obtain ⟨hp, _, hs⟩ := h
  have hb : s.blockStep = s := by
    rcases blockStep_cases s with ⟨_, e⟩ | ⟨_, _, _, _, e, _⟩ | ⟨_, _, e, _⟩ | ⟨_, _, e, _⟩
    · exact e
    all_goals rw [hp] at e; cases e
  have hst : s.startupStep = s := by simp [State.startupStep, hs]
  rw [State.runCycle, hb, hst]
  exact hostWait_eq s

/-! ### The observation over resets -/

/-- The stretches between resets, put together, are the events performed (R119). -/
theorem spans_flatten (s : State) : s.spans.flatten = s.performed := by
  unfold State.spans State.performed
  split
  · rename_i h; simp [h]
  · simp

/-- A reset takes nothing back that was performed (R119, R203). -/
theorem takeReset_performed (s : State) : s.takeReset.performed = s.performed := by
  rw [← spans_flatten s]
  simp [State.performed, State.reset]

/-- What a cycle without acceptance adds to the observation: one event at most (R59, R110, R119). -/
theorem runCycle_performed (s : State) : s.performed <+: s.runCycle.performed ∧
    s.runCycle.performed.length ≤ s.performed.length + 1 := by
  obtain ⟨_, _, _, _, hp, hl, he⟩ := runCycle_keeps s
  simp only [State.performed, he, List.length_append]
  exact ⟨(List.prefix_append_right_inj _).mpr hp, by omega⟩

/-- While the host is steady and the block not ready, a step is the block's own work (R110, R201). -/
theorem step_of_steady {s : State} (h : s.hostSteady) (hr : s.reqReady = false) :
    step s = .next s.blockStep.startupStep := by
  rcases step_cases s with ⟨hr', _⟩ | ⟨w, h', _, h1, h2, h3, _⟩ | ⟨_, _, hs⟩
  · simp [rstN_of_steady h] at hr'
  · simp [State.reqReady, h1, h2, h3] at hr
  · have h2 : (s.blockStep.startupStep).hostSteady := by
      simpa [State.hostSteady, startupStep_host, blockStep_host] using h
    rw [hs, State.runCycle, hostWait_of_steady h2]

/-- A ready block takes the word offered (R38). -/
theorem step_of_offer {s : State} {w : Word} {h : List HostAct} (hh : s.host = .offer w :: h)
    (hr : s.reqReady = true) : step s = exec (classify s.runLeft w) { s with host := h } := by
  have h1 : s.rstN = true := by simp [State.rstN, hh]
  have : s.edge = .accept w := by simp [State.edge, h1, State.offered, hh, hr]
  simp [step, this, State.hostNext, hh]

end Sys2Proof.Machine
end

