-- ==== Sys2Proof/Laws/Accept.lean ====
section
/-! SUPPORT. What an accepted word can do, said once: which events it appends and what it makes of the run count (R83, R112-R115, R140, R141, R171). -/

namespace Sys2Proof.Machine

/-- A frame a request can send whole (R87-R89). -/
def SentByRequest (bs : List Level) : Prop :=
  (∃ c, bs = cmdBits c) ∨ (∃ a d, bs = wrBits a d) ∨ bs = runHdrBits

/-- The events a word accepted with `r` words owed can append, and the words owed after it. -/
inductive Appended : BitVec 16 → List WireEvent → BitVec 16 → Prop where
  /-- A request outside a run: any number of whole frames. -/
  | frames (fs : List (List Level)) (h : ∀ bs ∈ fs, SentByRequest bs) :
      Appended 0 (fs.flatMap frame) 0
  /-- WRRUN: the opening of a run frame, `n` words owed. -/
  | opening (n : BitVec 16) (h : n ≠ 0) : Appended 0 runOpening n
  /-- A data word that is not the last one. -/
  | nibble (r : BitVec 16) (d : Nibble) (h : r ≠ 0) (h' : r - 1 ≠ 0) :
      Appended r (bitsEv (nibBits d)) (r - 1)
  /-- The last data word of a run. -/
  | lastNibble (d : Nibble) : Appended 1 (bitsEv (nibBits d) ++ [.set .cs true]) 0

theorem appended_frame {bs : List Level} (h : SentByRequest bs) : Appended 0 (frame bs) 0 := by
  simpa using Appended.frames [bs] (by simpa using h)

theorem appended_nothing : Appended 0 [] 0 := by
  simpa using Appended.frames [] (by simp)

/-- A data word appends its nibble (R115). -/
theorem exec_nib_appends {s t : State} {w : Word} (h : exec (.nib w) s = .next t) :
    ∃ es, t = { s with pend := s.pend ++ es, runLeft := t.runLeft } ∧
      Appended s.runLeft es t.runLeft := by
  rw [exec_nib] at h
  split at h
  · cases h
  · rename_i hl
    cases h
    by_cases h2 : s.runLeft.toNat = 1
    · have h1 : s.runLeft = 1 := BitVec.eq_of_toNat_eq h2
      refine ⟨bitsEv (nibBits (nibOperand w)) ++ [.set .cs true], by simp [h2], ?_⟩
      rw [h1]
      exact .lastNibble _
    · refine ⟨bitsEv (nibBits (nibOperand w)), by simp [h2], .nibble _ _ ?_ ?_⟩
      · intro e; simp [e] at hl
      · intro e
        have h3 : s.runLeft = 1 := by
          have := congrArg (· + 1) e
          simpa using this
        simp [h3] at h2

/-- A request appends whole frames, or opens a run (R112-R114, R140, R141, R171). -/
theorem exec_request_appends {s t : State} {w : Word} (hr : s.runLeft = 0)
    (h : exec (decodeRequest w) s = .next t) :
    ∃ es, t = { s with
        sh := t.sh, illegal := t.illegal, pend := s.pend ++ es, runLeft := t.runLeft } ∧
      Appended s.runLeft es t.runLeft := by
  unfold decodeRequest at h
  split at h
  case h_2 =>
    cases h
    exact ⟨_, rfl, by simpa [hr] using appended_frame (.inl ⟨_, rfl⟩)⟩
  case h_3 =>
    cases h
    exact ⟨_, rfl, by simpa [hr] using appended_frame (.inr (.inl ⟨_, _, rfl⟩))⟩
  case h_4 =>
    rw [exec_wrrun] at h
    cases h
    by_cases hd : (dField w).toNat = 0
    · refine ⟨frame runHdrBits, by simp [hd, frame, runOpening], ?_⟩
      simpa [hd, hr] using appended_frame (.inr (.inr rfl))
    · refine ⟨runOpening, by simp [hd], ?_⟩
      simp only [hd, if_false, hr]
      exact .opening _ (by intro e; simp [e] at hd)
  case h_5 =>
    rw [exec_setseg] at h
    cases h
    split
    · exact ⟨_, rfl, by simpa [hr] using appended_frame (.inr (.inl ⟨_, _, rfl⟩))⟩
    · exact ⟨[], by simp, by simpa [hr] using appended_nothing⟩
  case h_6 =>
    cases h
    refine ⟨clearFrames, rfl, ?_⟩
    have h := Appended.frames
      ((List.range Config.numCells).map fun c => wrBits (BitVec.ofNat 6 c) 0) (by
        intro bs hb
        obtain ⟨c, _, rfl⟩ := List.mem_map.mp hb
        exact .inr (.inl ⟨_, _, rfl⟩))
    simp only [emit_runLeft, clearCells_runLeft, hr]
    rw [List.flatMap_map] at h
    exact h
  all_goals cases h; exact ⟨[], by simp [State.raiseIllegal], by simpa [hr] using appended_nothing⟩

/-- What an accepted word appends (R83). -/
theorem exec_classify_appends {s t : State} {w : Word}
    (h : exec (classify s.runLeft w) s = .next t) :
    ∃ es, t = { s with
        sh := t.sh, illegal := t.illegal, pend := s.pend ++ es, runLeft := t.runLeft } ∧
      Appended s.runLeft es t.runLeft := by
  unfold classify at h
  split at h
  · obtain ⟨es, ht, ha⟩ := exec_nib_appends h
    refine ⟨es, ?_, ha⟩
    have h1 : t.sh = s.sh := by rw [ht]
    have h2 : t.illegal = s.illegal := by rw [ht]
    rw [h1, h2]
    exact ht
  · exact exec_request_appends (BitVec.eq_of_toNat_eq (by simp; omega)) h

end Sys2Proof.Machine
end

