-- ==== Sys2Proof/Laws/PerInstr.lean ====
section
/-! SUPPORT. Per instruction: its encoding has the shape its row of spec/opcode_table.json gives it. -/

namespace Sys2Proof.Laws.TableRow

/-- The value of bits 31:28 in the row's `match`, where its `mask` fixes them. -/
def fixedOp : Instr → Option (BitVec 4)
  | .cmd _ _ => some 0x1
  | .wrcell _ _ => some 0x2
  | .wrrun _ _ => some 0x3
  | .nib _ => none
  | .setseg _ _ => some 0x4
  | .clrall _ _ => some 0x5
  | .reserved0 _ _ => some 0x0
  | .reserved6 _ _ => some 0x6
  | .reserved7 _ _ => some 0x7
  | .reserved8 _ _ => some 0x8
  | .reserved9 _ _ => some 0x9
  | .reservedA _ _ => some 0xA
  | .reservedB _ _ => some 0xB
  | .reservedC _ _ => some 0xC
  | .reservedD _ _ => some 0xD
  | .reservedE _ _ => some 0xE
  | .reservedF _ _ => some 0xF
  | .wireCommandFrame _ => none
  | .wireWriteFrame _ _ => none
  | .wireRunFrame _ => none

/-- The number of bits of the row's frame, where the row is a frame. -/
def frameBits : Instr → Nat
  | .wireCommandFrame _ => 12
  | .wireWriteFrame _ _ => 13
  | .wireRunFrame ds => 9 + 4 * ds.length
  | .cmd _ _ => 0
  | .wrcell _ _ => 0
  | .wrrun _ _ => 0
  | .nib _ => 0
  | .setseg _ _ => 0
  | .clrall _ _ => 0
  | .reserved0 _ _ => 0
  | .reserved6 _ _ => 0
  | .reserved7 _ _ => 0
  | .reserved8 _ _ => 0
  | .reserved9 _ _ => 0
  | .reservedA _ _ => 0
  | .reservedB _ _ => 0
  | .reservedC _ _ => 0
  | .reservedD _ _ => 0
  | .reservedE _ _ => 0
  | .reservedF _ _ => 0

/-- A request word has the row's OP; a frame has the row's number of bits and begins with a mode BSE emits (R81, R87-R90). -/
def Statement (i : Instr) : Prop :=
  match encode i with
  | .word w => ∀ op, fixedOp i = some op → opField w = op
  | .frame bs => bs.length = frameBits i ∧ (bs.take 3 = prefixCmd ∨ bs.take 3 = prefixWr)

/-- A packed word has the OP it was packed with. -/
theorem packed (op : BitVec 4) (a : BitVec 12) (d : BitVec 16) :
    ∀ op', some op = some op' → opField (packWord op a d) = op' := by
  intro op' h
  rw [opField_packWord]
  exact Option.some.inj h

theorem cmd (a : BitVec 12) (d : BitVec 16) : Statement (.cmd a d) := packed _ a d
theorem wrcell (a : BitVec 12) (d : BitVec 16) : Statement (.wrcell a d) := packed _ a d
theorem wrrun (a : BitVec 12) (d : BitVec 16) : Statement (.wrrun a d) := packed _ a d
theorem nib (w : Word) : Statement (.nib w) := nofun
theorem setseg (a : BitVec 12) (d : BitVec 16) : Statement (.setseg a d) := packed _ a d
theorem clrall (a : BitVec 12) (d : BitVec 16) : Statement (.clrall a d) := packed _ a d
theorem reserved0 (a : BitVec 12) (d : BitVec 16) : Statement (.reserved0 a d) := packed _ a d
theorem reserved6 (a : BitVec 12) (d : BitVec 16) : Statement (.reserved6 a d) := packed _ a d
theorem reserved7 (a : BitVec 12) (d : BitVec 16) : Statement (.reserved7 a d) := packed _ a d
theorem reserved8 (a : BitVec 12) (d : BitVec 16) : Statement (.reserved8 a d) := packed _ a d
theorem reserved9 (a : BitVec 12) (d : BitVec 16) : Statement (.reserved9 a d) := packed _ a d
theorem reservedA (a : BitVec 12) (d : BitVec 16) : Statement (.reservedA a d) := packed _ a d
theorem reservedB (a : BitVec 12) (d : BitVec 16) : Statement (.reservedB a d) := packed _ a d
theorem reservedC (a : BitVec 12) (d : BitVec 16) : Statement (.reservedC a d) := packed _ a d
theorem reservedD (a : BitVec 12) (d : BitVec 16) : Statement (.reservedD a d) := packed _ a d
theorem reservedE (a : BitVec 12) (d : BitVec 16) : Statement (.reservedE a d) := packed _ a d
theorem reservedF (a : BitVec 12) (d : BitVec 16) : Statement (.reservedF a d) := packed _ a d
theorem wireCommandFrame (c : BitVec 8) : Statement (.wireCommandFrame c) :=
  ⟨cmdBits_length c, .inl rfl⟩
theorem wireWriteFrame (a : BitVec 6) (d : Nibble) : Statement (.wireWriteFrame a d) :=
  ⟨wrBits_length a d, .inr rfl⟩
theorem wireRunFrame (ds : List Nibble) : Statement (.wireRunFrame ds) :=
  ⟨by simp [runBits, frameBits, Nat.mul_comm], .inr rfl⟩

end Sys2Proof.Laws.TableRow
end

