-- ==== Sys2Proof/Tests/Slice0.lean ====
section
/-! SUPPORT. The model's own tests. Expected values come from spec/95_test_vectors.md (the vector's id is named) or are worked out by hand from the rule named. -/

namespace Sys2Proof.Tests
open Sys2Proof Sys2Proof.Machine

/-! ### Helpers -/

/-- The state after reset and startup (95: `stat = 0x08`). -/
def ready : State := { State.reset with started := true, oe := true }

/-- A run with `n` data words owed. -/
def inRun (n : BitVec 16) : State := { ready with runLeft := n, cs := false }

/-- The next state, where there is one. -/
def nextOf (o : Host.Outcome State Fault Refusal) : Option State :=
  match o with
  | .next t => some t
  | .fault _ => none
  | .refused _ => none

/-- The state after the words of a stream, performed one after the other. -/
def afterWords (s : State) (ws : List Word) : Option State := execAll (decodeStream s.runLeft ws) s

/-- The frames of a stream. -/
def sent (s : State) (ws : List Word) : Option (List (List Level)) :=
  (afterWords s ws).map fun t => framesOf t.events

/-- A bit list from the digits of a number written in binary. -/
def b (w v : Nat) : List Level := bits v w

/-! ### WellFormed -/

theorem test_wf_refuses_long_run (d : Nibble) :
    WellFormed (.wireRunFrame (List.replicate 65536 d)) = false := by
  rw [WellFormed, runLengthFits, List.length_replicate]; rfl

theorem test_wf_accepts_longest_run (d : Nibble) :
    WellFormed (.wireRunFrame (List.replicate 65535 d)) = true := by
  rw [WellFormed, runLengthFits, List.length_replicate]; rfl

/-! ### Decoding: one word per row, written out from R80, R81 -/

theorem test_decode_cmd : decodeRequest 0b0001_000110101011_0000000000000000 = .cmd 0x1AB 0 := by decide
theorem test_decode_wrcell : decodeRequest 0b0010_000001111111_0000000000011111 = .wrcell 0x07F 0x001F := by decide
theorem test_decode_wrrun : decodeRequest 0b0011_111111111111_0000000000000010 = .wrrun 0xFFF 2 := by decide
theorem test_decode_setseg : decodeRequest 0b0100_000010011111_0000000000000001 = .setseg 159 1 := by decide
theorem test_decode_clrall : decodeRequest 0b0101_111111111111_1111111111111111 = .clrall 0xFFF 0xFFFF := by decide
theorem test_decode_reserved0 : decodeRequest 0b0000_000000000000_0000000000000000 = .reserved0 0 0 := by decide
theorem test_decode_reserved6 : decodeRequest 0b0110_100000000000_0000000000000001 = .reserved6 0x800 1 := by decide
theorem test_decode_reserved7 : decodeRequest 0b0111_100000000000_0000000000000001 = .reserved7 0x800 1 := by decide
theorem test_decode_reserved8 : decodeRequest 0b1000_100000000000_0000000000000001 = .reserved8 0x800 1 := by decide
theorem test_decode_reserved9 : decodeRequest 0b1001_100000000000_0000000000000001 = .reserved9 0x800 1 := by decide
theorem test_decode_reservedA : decodeRequest 0b1010_100000000000_0000000000000001 = .reservedA 0x800 1 := by decide
theorem test_decode_reservedB : decodeRequest 0b1011_100000000000_0000000000000001 = .reservedB 0x800 1 := by decide
theorem test_decode_reservedC : decodeRequest 0b1100_100000000000_0000000000000001 = .reservedC 0x800 1 := by decide
theorem test_decode_reservedD : decodeRequest 0b1101_100000000000_0000000000000001 = .reservedD 0x800 1 := by decide
theorem test_decode_reservedE : decodeRequest 0b1110_100000000000_0000000000000001 = .reservedE 0x800 1 := by decide
theorem test_decode_reservedF : decodeRequest 0b1111_100000000000_0000000000000001 = .reservedF 0x800 1 := by decide

/-- V-R4, V-R6: inside a run every word is a nibble. -/
theorem test_classify_in_run : classify 2 0x40050001 = .nib 0x40050001 := by decide
theorem test_classify_reserved_in_run : classify 1 0x70000000 = .nib 0x70000000 := by decide

/-- V-R4 as a stream: a WRRUN of two words, its two data words, then a request again (R84). -/
theorem test_decode_stream : decodeStream 0 [0x3FFF0002, 0x40050001, 0xFFFFFFF0, 0x10010000] =
    [.wrrun 0xFFF 2, .nib 0x40050001, .nib 0xFFFFFFF0, .cmd 1 0] := by decide

/-- R92 on the frames of V-K1, V-W1 and V-R3, and on a prefix BSE never emits (R90). -/
theorem test_decode_wire_command :
    decodeWire (b 12 0b100_00000001_0) = .ok (.command 1) := by decide
theorem test_decode_wire_write :
    decodeWire (b 13 0b101_100111_1111) = .ok (.writeRun 39 [15]) := by decide
theorem test_decode_wire_run :
    decodeWire (b 21 0b101_000000_0001_0010_1111) = .ok (.writeRun 0 [1, 2, 15]) := by decide
theorem test_decode_wire_rejects :
    decodeWire (b 13 0b110_000000_0000) = .error .notAFrameOfBse := by decide

/-- The table's reading: whole bytes are a request word, a frame's length is a frame. -/
theorem test_table_word : decodeTableWord 32 0x20000000 = some (.wrcell 0 0) := by decide
theorem test_table_frame : decodeTableWord 13 0b101_100111_1111 = some (.wireWriteFrame 39 15) := by
  decide

/-! ### Operations -/

/-- V-K1, the full event list of section 4 of 95_test_vectors.md. -/
theorem test_cmd_events : (afterWords ready [0x10010000]).map State.pend = some
    ([.set .cs false,
      .set .stb false, .set .dat true, .hold, .set .stb true, .hold,
      .set .stb false, .set .dat false, .hold, .set .stb true, .hold,
      .set .stb false, .set .dat false, .hold, .set .stb true, .hold,
      .set .stb false, .set .dat false, .hold, .set .stb true, .hold,
      .set .stb false, .set .dat false, .hold, .set .stb true, .hold,
      .set .stb false, .set .dat false, .hold, .set .stb true, .hold,
      .set .stb false, .set .dat false, .hold, .set .stb true, .hold,
      .set .stb false, .set .dat false, .hold, .set .stb true, .hold,
      .set .stb false, .set .dat false, .hold, .set .stb true, .hold,
      .set .stb false, .set .dat false, .hold, .set .stb true, .hold,
      .set .stb false, .set .dat true, .hold, .set .stb true, .hold,
      .set .stb false, .set .dat false, .hold, .set .stb true, .hold,
      .set .cs true]) := by decide

/-- V-K5: A masked to 8 bits, D ignored. -/
theorem test_cmd_masks : sent ready [0x1FFFFFFF] = some [b 12 0b100_11111111_0] := by decide

/-- V-W5 and V-W4. -/
theorem test_wrcell_masks : sent ready [0x207F001F] = some [b 13 0b101_111111_1111] := by decide
theorem test_wrcell_wraps_address : sent ready [0x20400005] = some [b 13 0b101_000000_0101] := by
  decide

/-- V-R1 and V-R3. -/
theorem test_wrrun_empty : sent ready [0x30000000] = some [b 9 0b101_000000] := by decide
theorem test_wrrun_three : sent ready [0x30000003, 0x00000001, 0x00000012, 0x0000000F] =
    some [b 21 0b101_000000_0001_0010_1111] := by decide

/-- V-R5: the frame stays open, one word owed. -/
theorem test_nib_leaves_run_open : (afterWords ready [0x30000002, 0x00000005]).map
    (fun t => (t.runLeft, framesOf t.events, openBits t.events, t.events.length)) =
    some (1, [], some (b 13 0b101_000000_0101), 66) := by decide

/-- R115's example: with `run_left = 1`, `NIB 0x12` sends `0010` and closes the frame. -/
theorem test_nib_closes : (nextOf (exec (.nib 0x12) (inRun 1))).map
    (fun t => (t.runLeft, t.pend)) = some (0, bitsEv (b 4 0b0010) ++ [.set .cs true]) := by decide

/-- V-S1 and V-S9. -/
theorem test_setseg_sets : (afterWords ready [0x40050001]).map
    (fun t => (t.readCell 1, framesOf t.events)) = some (2, [b 13 0b101_000001_0010]) := by decide
theorem test_setseg_keeps_others : (afterWords { ready with sh := ready.sh.setIfInBounds 1 0xF }
    [0x40050001, 0x40050000]).map (fun t => (t.readCell 1, framesOf t.events)) =
    some (0xD, [b 13 0b101_000001_1111, b 13 0b101_000001_1101]) := by decide

/-- V-S3 and V-S4: the last index and the first ignored one. -/
theorem test_setseg_last : (afterWords ready [0x409F0001]).map
    (fun t => (t.readCell 39, framesOf t.events)) = some (8, [b 13 0b101_100111_1000]) := by decide
theorem test_setseg_ignored : afterWords ready [0x40A00001] = some ready := by decide

/-- V-C1: the cells, and the first and last of the 40 frames. -/
theorem test_clrall_cells : (afterWords
    { ready with sh := (ready.sh.setIfInBounds 3 5).setIfInBounds 39 0xF }
    [0x50000000]).map State.sh = some (Vector.replicate 40 0) := by decide
theorem test_clrall_frames : clearFrames.take 67 = frame (b 13 0b101_000000_0000) ∧
    clearFrames.drop (39 * 67) = frame (b 13 0b101_100111_0000) := by decide +kernel

/-- V-X1 and V-X4: nothing but ILLEGAL, which later requests leave set. -/
theorem test_reserved : afterWords ready [0x00000000] = some { ready with illegal := true } := by
  decide
theorem test_reserved_sticky : (afterWords ready [0x00000000, 0x10010000]).map
    (fun t => (t.illegal, framesOf t.events)) = some (true, [b 12 0b100_00000001_0]) := by decide

/-- Each reserved OP, by its row (R171). -/
theorem test_reserved6 : afterWords ready [0x60000000] = some { ready with illegal := true } := by
  decide
theorem test_reserved7 : afterWords ready [0x70000000] = some { ready with illegal := true } := by
  decide
theorem test_reserved8 : afterWords ready [0x80000000] = some { ready with illegal := true } := by
  decide
theorem test_reserved9 : afterWords ready [0x90000000] = some { ready with illegal := true } := by
  decide
theorem test_reservedA : afterWords ready [0xA0000000] = some { ready with illegal := true } := by
  decide
theorem test_reservedB : afterWords ready [0xB0000000] = some { ready with illegal := true } := by
  decide
theorem test_reservedC : afterWords ready [0xC0000000] = some { ready with illegal := true } := by
  decide
theorem test_reservedD : afterWords ready [0xD0000000] = some { ready with illegal := true } := by
  decide
theorem test_reservedE : afterWords ready [0xE0000000] = some { ready with illegal := true } := by
  decide
theorem test_reservedF : afterWords ready [0xF0000000] = some { ready with illegal := true } := by
  decide

/-- R89: a run frame of one nibble is the write frame of cell 0. -/
theorem test_wire_run_of_one : (nextOf (exec (.wireRunFrame [9]) ready)).map State.pend =
    (nextOf (exec (.wireWriteFrame 0 9) ready)).map State.pend := by decide
theorem test_wire_command : (nextOf (exec (.wireCommandFrame 0xFF) ready)).map
    (fun t => framesOf t.events) = some [b 12 0b100_11111111_0] := by decide

/-! ### The step, the port and the status -/

/-- A word offered to the idle block is accepted and performed (R38). -/
theorem test_step_accepts : (nextOf (step (State.reset.withFetchWord 32 0x40050001))).map
    (fun t => (t.readCell 1, t.pend.length, t.host)) = some (2, 67, []) := by decide

/-- The first event of a frame takes one step (R110). -/
theorem test_step_performs : (nextOf (step { ready with
    pend := frame (b 12 0b100_00000001_0), host := [.offer 0x50000000] })).map
    (fun t => (t.cs, t.pend.length, t.trace, t.host)) =
    some (false, 61, [.set .cs false], [.offer 0x50000000]) := by decide

/-- V-Z1 and V-X1: `stat` is 0x08 after startup, 0x0A with ILLEGAL. -/
theorem test_stat_ready : ready.stat = 0x08 := by decide
theorem test_stat_illegal : State.stat { ready with illegal := true } = 0x0A := by decide

/-- V-R5: BUSY, RUN_OPEN and STARTED while a run waits. -/
theorem test_stat_run_open : (inRun 1).stat = 0x0D := by decide

/-- V-Z2: reset in an open run releases the lines and closes nothing, and what was performed is still the observation (R119). -/
theorem test_reset_in_run : (nextOf (step { inRun 1 with host := [.reset], trace := runOpening })).map
    (fun t => (t.stat, t.runLeft, t.csPort, t.trace, t.observation.events)) =
    some (0, 0, none, [], runOpening) := by decide

/-- R119: a frame sent before a reset is still seen after it; a frame the reset cut is none (R203). -/
theorem test_frames_over_reset : (nextOf (step { ready with
    host := [.reset]
    trace := frame (b 12 0b100_00000001_0) ++
      [.set .cs false, .set .stb false, .set .dat true] })).map
    (fun t => (t.framesSent, t.past.length)) = some ([b 12 0b100_00000001_0], 1) := by decide

/-- Programs P2 and P3 of 95_test_vectors.md, without P2's CLRALL: end state and frames. -/
theorem test_program_p2 : (afterWords ready
    [0x30000003, 0x00000001, 0x00000012, 0x0000000F, 0x40010001]).map
    (fun t => (t.readCell 0, framesOf t.events)) =
    some (2, [b 21 0b101_000000_0001_0010_1111, b 13 0b101_000000_0010]) := by decide
theorem test_program_p3 : (afterWords ready [0x70000000, 0x40C80001, 0x2045001A, 0x11AB0000]).map
    (fun t => (t.illegal, framesOf t.events)) =
    some (true, [b 13 0b101_000101_1010, b 12 0b100_10101011_0]) := by decide

/-- The controller model on P2's frames (R65): C[0] = 2, C[1] = 2, C[2] = 0xF. -/
theorem test_controller_p2 : ((afterWords ready
    [0x30000003, 0x00000001, 0x00000012, 0x0000000F, 0x40010001]).map
    fun t => (t.controller.toList.take 4)) = some [some 2, some 2, some 15, none] := by decide

/-! ### The assembler -/

/-- P3's lines and words (R93). -/
theorem test_assemble_p3 : assemble [.word 0x70000000, .setseg 200 1, .wrcell 0x45 0x1A, .cmd 0x1AB]
    = .ok [0x70000000, 0x40C80001, 0x2045001A, 0x11AB0000] := by decide

/-- R94: WRRAW stands for WRRUN and its data words. -/
theorem test_assemble_wrraw : assemble [.wrraw [1, 2, 15]] = .ok [0x30000003, 1, 2, 15] := by decide

/-- R93: an operand must fit its request field; NIB stands only in a run. -/
theorem test_assemble_refuses : assemble [.cmd 0x1000] = .error .operandDoesNotFit ∧
    assemble [.nib 1] = .error .nibOutsideRun := by decide

/-- A line of P3 with its comment. -/
theorem test_parse_line : parseLine ['\t', 'W', 'R', 'C', 'E', 'L', 'L', ' ', '0', 'x', '4', '5', ',', ' ',
    '0', 'x', '1', 'A', ' ', ';', 'm'] = .ok (some (.wrcell 0x45 0x1A)) := by decide

/-- R95: WRRUN takes no start address. -/
theorem test_parse_wrrun_start : parseLine ['W', 'R', 'R', 'U', 'N', ' ', '0', ',', '3'] =
    .error .notALine := by decide

/-! ### Witnesses: a state and operands for the hypotheses of each statement, and for each of its clauses -/

/-- The state after startup with words offered. -/
def offering (ws : List Word) : State := { ready with host := ws.map .offer }

/-- In the middle of a bit: CS and STB low, DAT about to be set (R111). -/
def midBit : State := { ready with
  cs := false, stb := false, trace := [.set .cs false, .set .stb false]
  pend := [.set .dat true, .hold, .set .stb true, .hold, .set .cs true] }

/-- A run of which the header has been sent and one data word is owed. -/
def midRun : State := { inRun 1 with trace := runOpening }

theorem witness_reset : State.rstN { midRun with host := [.reset] } = false := by decide

theorem witness_startup : State.reset.started = false ∧ State.reset.oe = false ∧
    State.reset.pend = [] ∧ State.reset.startupCnt = 0 ∧ State.reset.hostSteady ∧
    0 < Config.startupCycles :=
  ⟨rfl, rfl, rfl, rfl, .inl rfl, startupCycles_pos⟩

theorem witness_accept_request : (offering [0x10010000]).host = [.offer 0x10010000] ∧
    (offering [0x10010000]).reqReady = true ∧ (offering [0x10010000]).runLeft.toNat = 0 := by decide

theorem witness_accept_data_word : State.reqReady { inRun 1 with host := [.offer 0xF0000000] } = true ∧
    0 < (inRun 1).runLeft.toNat := by decide

/-- One word for each OP clause, at both ends of the reserved ranges (R81, R85). -/
theorem witness_op_clauses : opField 0x1FFFFFFF = 0x1 ∧ opField 0x20000000 = 0x2 ∧
    opField 0x30000000 = 0x3 ∧ opField 0x40000000 = 0x4 ∧ opField 0x5FFFFFFF = 0x5 ∧
    (opField 0x0FFFFFFF).toNat = 0 ∧ 6 ≤ (opField 0x60000000).toNat ∧
    6 ≤ (opField 0xFFFFFFFF).toNat := by decide

theorem witness_decoded_instruction :
    classify (offering [0x2027000F]).runLeft 0x2027000F = .wrcell 39 15 := by decide

theorem witness_offer_waits : State.reqReady { midBit with host := [.offer 0x50000000] } = false ∧
    (offering [0x50000000]).reqReady = true := by decide

theorem witness_block_set : midBit.rstN = true ∧ midBit.oe = true ∧
    midBit.pend = .set .dat true :: midBit.pend.tail := by decide

/-- A `Hold` on its last cycle, and one that goes on. -/
theorem witness_block_hold_last : State.oe { ready with
    pend := [.hold], holdCnt := Config.holdCycles - 1 } = true ∧
    Config.holdCycles - 1 + 1 = Config.holdCycles := ⟨rfl, Nat.succ_pred_eq_of_pos holdCycles_pos⟩
theorem witness_block_hold_goes_on : State.oe { ready with
    pend := [.hold], holdCnt := Config.holdCycles } = true ∧
    Config.holdCycles + 1 ≠ Config.holdCycles := ⟨rfl, by omega⟩

/-- A host that idles and then offers, and one that resets only after the pending event is done. -/
theorem witness_clocked : midBit.started = true ∧ midBit.oe = true ∧ midBit.holdCnt = 0 ∧
    (∀ n, ∀ a ∈ ([.idle, .offer 0x50000000] : List HostAct).take n, a ≠ .reset) ∧
    cyclesOf [.set .cs false] = 1 ∧
    ∀ a ∈ ([.idle, .reset] : List HostAct).take 1, a ≠ .reset := by
  refine ⟨rfl, rfl, rfl, fun n a ha => ?_, rfl, by decide⟩
  have := List.mem_of_mem_take ha
  revert this
  clear ha
  revert a
  decide

/-- The untimed block: lines driven, and not. -/
theorem witness_untimed : midBit.oe = true ∧ 5 ≤ midBit.pend.length ∧ State.reset.oe = false := by
  decide

theorem witness_wrrun_counts : (0#16).toNat = 0 ∧ (65535#16).toNat ≠ 0 := by decide

/-- NIB: the last word owed, and the first of the most that can be owed; and no run. -/
theorem witness_nib : 0 < (inRun 1).runLeft.toNat ∧ 0 < (inRun 65535).runLeft.toNat ∧
    ready.runLeft.toNat = 0 ∧ classify 1 7 = .nib 7 := by decide

/-- SETSEG on both sides of its range (R52). -/
theorem witness_setseg : (0#12).toNat < 160 ∧ (159#12).toNat < 160 ∧ 160 ≤ (160#12).toNat ∧
    160 ≤ (4095#12).toNat := by decide

theorem witness_run_of_data_words : ([1, 2, 15] : List Word).length < 2 ^ 16 ∧ ready.runLeft = 0 ∧
    ([] : List Word).length < 2 ^ 16 := by decide
theorem witness_longest_run_of_data_words (w : Word) :
    (List.replicate 65535 w).length < 2 ^ 16 ∧ ready.runLeft = 0 := by
  rw [List.length_replicate]; exact ⟨by decide, rfl⟩

theorem witness_ignored_bits : (0x1AB#12).toNat % 256 = (0xAB#12).toNat % 256 ∧
    (0x40#12).toNat % 64 = (0#12).toNat % 64 ∧ (0x1F#16).toNat % 16 = (0xF#16).toNat % 16 ∧
    (0xFFFE#16).toNat % 2 = (0#16).toNat % 2 ∧
    (0xFFFFFFF0#32).toNat % 16 = (0#32).toNat % 16 := by decide

/-- An instruction of each clause that changes what the clause is about. -/
theorem witness_instruction_changes :
    (nextOf (exec (.setseg 5 1) ready)).map State.sh ≠ some ready.sh ∧
    (nextOf (exec (.wrrun 0 1) ready)).map State.runLeft ≠ some ready.runLeft ∧
    (nextOf (exec (.nib 0) (inRun 1))).map State.runLeft ≠ some (inRun 1).runLeft ∧
    (nextOf (exec (.reservedF 0 0) ready)).map State.illegal ≠ some ready.illegal := by decide

theorem witness_encodings : WellFormed (.wireRunFrame [9]) = true ∧
    encode (.wireRunFrame [9]) = .frame (b 13 0b101_000000_1001) ∧
    encode (.cmd 1 0) = .word 0x10010000 ∧ encode (.nib 7) = .word 7 ∧ 0 < (1#16).toNat := by decide

theorem witness_run_nibble : ([1, 2, 15] : List Nibble)[2]? = some 15 := by decide

theorem witness_same_index : cellOf (159#12).toNat = cellOf (156#12).toNat ∧
    bitOf (159#12).toNat ≠ bitOf (156#12).toNat ∧ cellOf (5#12).toNat = cellOf (5#12).toNat := by decide

theorem witness_costs : ready.pend = [] ∧ ready.runLeft = 0 ∧ (159#12).toNat < 160 ∧
    160 ≤ (160#12).toNat ∧ (nextOf (exec (.cmd 0 0) ready)).isSome = true ∧
    (execAll [.wrrun 0 1, .nib 7] ready).isSome = true := by decide

theorem witness_busy_reset : State.rstN { midBit with host := [.reset] } = false := by decide
theorem witness_busy_clear : ready.busy = false ∧ ready.started = true := by decide

theorem witness_illegal : State.edge { ready with host := [.offer 0] } = .accept 0 ∧
    ready.runLeft.toNat = 0 ∧ (opField 0).toNat = 0 ∧ ready.rstN = true := by decide
theorem witness_illegal_step : (nextOf (step { ready with host := [.offer 0] })).isSome = true := by
  decide

theorem witness_shadow_write : (nextOf (step (offering [0x40050001]))).map State.sh ≠
    some (offering [0x40050001]).sh := by decide

theorem witness_readback : ready.rstN = true ∧ ready.sh[(39#6).toNat]? = some 0 ∧
    40 ≤ (40#6).toNat ∧ State.rstN { ready with host := [.reset] } = false := by decide

theorem witness_line_ports : ready.rstN = true ∧ ready.oe = true ∧ State.reset.oe = false := by decide

theorem witness_order : midBit.rstN = true ∧ (nextOf (step midBit)).isSome = true ∧
    (offering [0x10010000]).pend = [] ∧ State.rstN { midBit with host := [.reset] } = false ∧
    (nextOf (step { midBit with host := [.reset] })).isSome = true := by decide

theorem witness_started : midBit.rstN = true ∧ midBit.started = true ∧ midBit.oe = true ∧
    (nextOf (step midBit)).isSome = true ∧ State.rstN { midBit with host := [.reset] } = false ∧
    (nextOf (step { midBit with host := [.reset] })).isSome = true := by decide

theorem witness_idle : ready.Idle ∧ ready.rstN = true ∧ ready.offered = none ∧
    State.hostDone { ready with host := [.idle, .idle] } :=
  ⟨⟨rfl, rfl, rfl⟩, rfl, rfl, by intro a h; simpa using h⟩

/-- The invariant of the lines holds of states other than reset: before startup ends, idle, within a bit, within a run after a reset that cut a frame. -/
theorem witness_inv_starting : State.Inv { State.reset with host := [.idle] } :=
  ⟨rfl, fun _ => ⟨rfl, rfl, rfl, rfl, rfl, startupCycles_pos⟩, Nat.zero_le _,
    ⟨holdCycles_pos, nofun⟩, ⟨rfl, rfl, rfl⟩, rfl, by decide, by decide⟩
theorem witness_inv_ready : ready.Inv :=
  ⟨rfl, nofun, Nat.zero_le _, ⟨holdCycles_pos, nofun⟩, ⟨rfl, rfl, rfl⟩, rfl, by decide, by decide⟩
theorem witness_inv_midBit : midBit.Inv :=
  ⟨rfl, nofun, Nat.zero_le _, ⟨holdCycles_pos, nofun⟩, ⟨rfl, rfl, rfl⟩, by decide, by decide,
    by decide⟩
theorem witness_inv_midRun : State.Inv { midRun with dat := false, past := [[.set .cs false]] } :=
  ⟨rfl, nofun, Nat.zero_le _, ⟨holdCycles_pos, nofun⟩, ⟨by decide, by decide, by decide⟩,
    by decide, by decide, by decide⟩

/-- The invariant of the frames, with no run and with a run open, a frame sent before a reset. -/
theorem witness_frames_ready : ready.FramesInv :=
  ⟨by simp [State.events, ready, State.reset, framesOf, observe, Observer.start],
    by simp [ready, State.reset], fun _ => rfl, fun h => absurd rfl h⟩
theorem witness_frames_midRun :
    State.FramesInv { midRun with past := [frame (cmdBits 1)] } := by
  refine ⟨?_, ?_, fun h => absurd h (by decide), fun _ => ⟨runHdrBits, by decide, by decide, by decide⟩⟩
  · rw [show framesOf (State.events { midRun with past := [frame (cmdBits 1)] }) = [] by decide]
    simp
  · intro es he bs hb
    rw [List.mem_singleton.mp he, show framesOf (frame (cmdBits 1)) = [cmdBits 1] by decide] at hb
    rw [List.mem_singleton.mp hb]
    exact ⟨.command 1, .wireCommandFrame 1, by decide, rfl, rfl⟩

/-- Steps that change DAT, STB and CS. -/
theorem witness_lines_change : (nextOf (step midBit)).map State.dat ≠ some midBit.dat ∧
    (nextOf (step { midBit with pend := [.set .stb true] })).map State.stb ≠ some midBit.stb ∧
    (nextOf (step { ready with pend := frame [] })).map State.cs ≠ some ready.cs := by decide

theorem witness_stuck_run : (inRun 1).StuckOpenRun := by
  refine ⟨?_, rfl, by decide, rfl⟩
  intro a h
  simp [inRun, ready, State.reset] at h

theorem witness_set_then_clear : (159#12).toNat < 160 ∧ (1#16).getLsbD 0 = true ∧
    (0xFFFE#16).getLsbD 0 = false ∧ (ready.readCell 39).getLsbD 3 = false := by decide

theorem witness_union : (∀ c, c < 40 → ready.readCell c = 0) ∧
    (execAll [.setseg 5 1, .setseg 160 1, .clrall 0 0, .setseg 159 1] ready).isSome = true ∧
    lastOn 159 false [.setseg 5 1, .setseg 160 1, .clrall 0 0, .setseg 159 1] = true ∧
    lastOn 5 false [.setseg 5 1, .setseg 160 1, .clrall 0 0, .setseg 159 1] = false := by decide

theorem witness_no_open_frame : openBits ready.events = none ∧ openBits ready.trace = none := by decide

theorem witness_raw_write : (0x67#12).toNat % 64 < 40 ∧ (39#12).toNat % 64 < 40 := by decide

theorem witness_run_of_forty : ([9] : List Nibble) ≠ [] ∧ (List.replicate 40 (9 : Nibble)).length ≤ 40 := by
  decide

theorem witness_whole_requests : (offering [0x10010000]).Idle ∧ (offering [0x10010000]).oe = true ∧
    (offering [0x10010000]).holdCnt = 0 ∧ (offering [0x10010000]).host = [.offer 0x10010000] ∧
    opField 0x10010000 = 0x1 ∧ opField 0x409F0001 = 0x4 ∧ (aField 0x409F0001).toNat < 160 :=
  ⟨⟨rfl, rfl, rfl⟩, rfl, rfl, rfl, by decide, by decide, by decide⟩

/-- Operands at and past the ends of their request fields (R93). -/
theorem witness_assembler : AsmLine.toWord (.cmd 0xFFF) = .ok 0x1FFF0000 ∧
    AsmLine.toWord (.wrcell 0xFFF 0x10000) = .error .operandDoesNotFit ∧
    AsmLine.toWord (.setseg 0xFFF 2) = .error .operandDoesNotFit ∧
    AsmLine.toWord (.wrrun 0xFFFF) = .ok 0x3000FFFF ∧
    AsmLine.toWord (.nib 0xFFFFFFFF) = .ok 0xFFFFFFFF ∧
    AsmLine.toWord (.nib 0x100000000) = .error .operandDoesNotFit ∧
    AsmLine.toWord (.word 0xF0000000) = .ok 0xF0000000 ∧
    AsmLine.toWord (.word 0x100000000) = .error .operandDoesNotFit ∧
    (AsmLine.nib 1).fitsContext 0 = false ∧ (AsmLine.nib 1).fitsContext 1 = true ∧
    assembleFrom 1 [.nib 1, .nib 2] = .error .nibOutsideRun := by decide
theorem witness_pseudo : ([1, 2, 15] : List Nat).length ≤ 0xFFFF ∧
    (∀ d ∈ ([1, 2, 15] : List Nat), d ≤ 0xFFFFFFFF) ∧ (1 : Nat) ≤ 1 ∧
    ∀ i ∈ ([0, 4095] : List Nat), i ≤ 0xFFF := by decide

end Sys2Proof.Tests
end

/-! The untimed block performs its pending events first to last (R10, R59, R110): a run of it is a left fold of `State.performNow` over the front of `pend`, and that fold has a closed form. -/

namespace Sys2Proof.Machine

/-! ### Performing a list of events -/

/-- `s` after the events `es`, in closed form: they join the observation (R119) and each line is at its last `Set` (R25, R110). -/
def State.afterEvents (s : State) (es : List WireEvent) : State :=
  { s with
    trace := s.trace ++ es, cs := levelAfter .cs s.cs es, stb := levelAfter .stb s.stb es,
    dat := levelAfter .dat s.dat es }

theorem afterEvents_nil (s : State) : s.afterEvents [] = s := by
  simp [State.afterEvents, levelAfter]

theorem afterEvents_cons (s : State) (e : WireEvent) (es : List WireEvent) :
    s.afterEvents (e :: es) = (s.performNow e).afterEvents es := by
  cases e with
  | hold => simp [State.afterEvents, State.performNow, levelAfter]
  | set l b => cases l <;> simp [State.afterEvents, State.performNow, State.setLine, levelAfter]

theorem foldl_performNow (es : List WireEvent) (s : State) :
    es.foldl State.performNow s = s.afterEvents es := by
  induction es generalizing s with
  | nil => exact (afterEvents_nil s).symm
  | cons e es ih => rw [List.foldl_cons, ih, afterEvents_cons]

theorem drained_eq_afterEvents (s : State) :
    s.drained = State.afterEvents { s with pend := [] } s.pend :=
  foldl_performNow _ _

/-! ### Steps of the untimed block -/

/-- With the lines released the block performs nothing (R110). -/
theorem untimedStep_of_released (s : State) (hoe : s.oe = false) : s.untimedStep = s := by
  simp [State.untimedStep, hoe]

theorem untimedStep_of_driven (s : State) (e : WireEvent) (rest : List WireEvent)
    (hoe : s.oe = true) (hpend : s.pend = e :: rest) :
    s.untimedStep = { s with pend := rest }.performNow e := by
  simp [State.untimedStep, hoe, hpend]

@[simp] theorem performNow_oe (s : State) (e : WireEvent) : (s.performNow e).oe = s.oe := by
  cases e <;> simp [State.performNow]

@[simp] theorem performNow_pend (s : State) (e : WireEvent) : (s.performNow e).pend = s.pend := by
  cases e <;> simp [State.performNow]

/-- An event is performed alike whatever is pending after it. -/
theorem performNow_withPend (s : State) (e : WireEvent) (p : List WireEvent) :
    { s with pend := p }.performNow e = { s.performNow e with pend := p } := by
  cases e with
  | hold => rfl
  | set l b => cases l <;> rfl

/-- One step per event: `k` steps perform the first `k` pending events, first to last (R10, R59). -/
theorem untimedRun_of_driven (k : Nat) (s : State) (hoe : s.oe = true) (hk : k ≤ s.pend.length) :
    State.untimedRun k s = State.afterEvents { s with pend := s.pend.drop k } (s.pend.take k) := by
  induction k generalizing s with
  | zero => simp [State.untimedRun, afterEvents_nil]
  | succ k ih =>
    obtain ⟨e, rest, hpend⟩ := List.exists_cons_of_length_pos (by omega : 0 < s.pend.length)
    have hrest : k ≤ rest.length := by simpa [hpend] using hk
    have hstep := untimedStep_of_driven s e rest hoe hpend
    calc State.untimedRun (k + 1) s
        = State.untimedRun k ({ s with pend := rest }.performNow e) := by
          rw [State.untimedRun, hstep]
      _ = State.afterEvents { s.performNow e with pend := rest.drop k } (rest.take k) := by
          rw [ih _ (by simpa using hoe) (by simpa using hrest)]
          simp [performNow_withPend]
      _ = State.afterEvents { s with pend := s.pend.drop (k + 1) } (s.pend.take (k + 1)) := by
          rw [hpend, List.drop_succ_cons, List.take_succ_cons, afterEvents_cons,
            performNow_withPend s e (rest.drop k)]

theorem untimedRun_of_released (k : Nat) (s : State) (hoe : s.oe = false) :
    State.untimedRun k s = s := by
  induction k with
  | zero => rfl
  | succ k ih => rw [State.untimedRun, untimedStep_of_released s hoe, ih]

/-- As many steps as events are pending perform them all (R59). -/
theorem untimedRun_pend_length (s : State) (hoe : s.oe = true) :
    State.untimedRun s.pend.length s = s.drained := by
  rw [untimedRun_of_driven _ s hoe le_rfl, drained_eq_afterEvents, List.drop_length,
    List.take_length]

/-- Settles O8: a run of the untimed block is the closed form of the events it performs, by induction on the number of steps; so is draining, by induction on the pending events. -/
theorem untimedDrainPerformsEveryEvent : Obligations.UntimedDrainPerformsEveryEvent := by
  intro s
  refine ⟨fun hoe => ⟨fun k hk => ?_, untimedRun_pend_length s hoe⟩,
    fun hoe k => untimedRun_of_released k s hoe, ?_⟩
  · exact untimedRun_of_driven k s hoe hk
  · rw [drained_eq_afterEvents]
    exact ⟨rfl, rfl, rfl, rfl, rfl, rfl⟩

end Sys2Proof.Machine

/-! The invariant of lines, counters and startup (R30, R31, R34, R59, R117) is kept by a reset, by an accepted word and by each part of a cycle without acceptance. -/

namespace Sys2Proof.Machine

/-! ### Legal line activity of what a word appends -/

/-- The level CS rests at while `r` data words are owed: low exactly within a run (R30). -/
def restCs (r : BitVec 16) : Level := r == 0

theorem restCs_of_ne_zero {r : BitVec 16} (h : r ≠ 0) : restCs r = false := by simpa [restCs] using h

/-- A run's opening is legal where no frame is open and leaves one open (R114, R117). -/
theorem legalFrom_runOpening : legalFrom true true runOpening = true ∧
    levelAfter .cs true runOpening = false ∧ levelAfter .stb true runOpening = true := by
  obtain ⟨hlegal, hcs, hstb⟩ := legalFrom_bitsEv runHdrBits
  simp [runOpening, legalFrom, levelAfter, hlegal, hcs, hstb]

/-- Whole frames, one after the other, are legal where none is open (R59, R117). -/
theorem legalFrom_frames (fs : List (List Level)) : legalFrom true true (fs.flatMap frame) = true ∧
    levelAfter .cs true (fs.flatMap frame) = true ∧
    levelAfter .stb true (fs.flatMap frame) = true := by
  induction fs with
  | nil => exact ⟨rfl, rfl, rfl⟩
  | cons f fs ih =>
    obtain ⟨hlegal, hcs, hstb⟩ := legalFrom_frame f
    simpa [legalFrom_append, levelAfter_append, hlegal, hcs, hstb] using ih

/-- What an accepted word appends is legal from rest and comes to rest again (R30, R59, R117). -/
theorem Appended.legalFrom_rest {r r' : BitVec 16} {es : List WireEvent} (h : Appended r es r') :
    legalFrom (restCs r) true es = true ∧ levelAfter .cs (restCs r) es = restCs r' ∧
    levelAfter .stb true es = true := by
  cases h with
  | frames fs _ => exact legalFrom_frames fs
  | opening _ hn => rw [restCs_of_ne_zero hn]; exact legalFrom_runOpening
  | nibble _ d hr hr' =>
    rw [restCs_of_ne_zero hr, restCs_of_ne_zero hr']
    exact legalFrom_bitsEv (nibBits d)
  | lastNibble d =>
    obtain ⟨hlegal, hcs, hstb⟩ := legalFrom_bitsEv (nibBits d)
    rw [restCs_of_ne_zero (by decide : (1 : BitVec 16) ≠ 0)]
    simp [legalFrom_append, levelAfter_append, legalFrom, levelAfter, hlegal, hcs, hstb, restCs]

/-! ### The invariant -/

theorem reset_inv : State.reset.Inv where
  drivenWhenStarted := rfl
  beforeStartup _ := ⟨rfl, rfl, rfl, rfl, rfl, startupCycles_pos⟩
  startupInRange := Nat.zero_le _
  holdInRange := ⟨holdCycles_pos, fun h => absurd rfl h⟩
  lines := ⟨rfl, rfl, rfl⟩
  legal := rfl
  pastLegal := by simp [State.reset]
  atRest := by decide

/-- Settles O42: `reset_inv`, field by field from the values of R36. -/
theorem lineInvariantHoldsAtReset : Obligations.LineInvariantHoldsAtReset := reset_inv

namespace State.Inv

variable {s t : State}

/-- At rest CS has the level the run count gives it (R30). -/
theorem cs_atRest (hs : s.Inv) : levelAfter .cs true s.events = restCs s.runLeft := by
  have h := hs.atRest.1
  by_cases hr : s.runLeft = 0
  · simpa [hr, restCs] using h
  · rw [restCs_of_ne_zero hr]
    exact h.mpr hr

/-- What has been performed so far is legal, being the first part of all events (R59, R117). -/
theorem trace_legal (hs : s.Inv) : legalFrom true true s.trace = true := by
  have h := hs.legal
  rw [State.events, legalFrom_append, Bool.and_eq_true] at h
  exact h.1

theorem spans_legal (hs : s.Inv) : ∀ es ∈ s.spans, legalFrom true true es = true := by
  intro es hes
  unfold State.spans at hes
  split at hes
  · exact hs.pastLegal es hes
  · rcases List.mem_append.mp hes with hpast | hlast
    · exact hs.pastLegal es hpast
    · rw [List.mem_singleton.mp hlast]
      exact hs.trace_legal

/-- The invariant does not speak of the host. -/
theorem withHost (hs : s.Inv) (h : List HostAct) : State.Inv { s with host := h } :=
  { hs with }

theorem takeReset (hs : s.Inv) : s.takeReset.Inv :=
  { reset_inv with pastLegal := hs.spans_legal }

/-- A state of the started block keeps the invariant when an accepted word's events join it (R38, R83). -/
theorem accepted (hs : s.Inv) (hstarted : s.started = true) (hpend : s.pend = [])
    {sh : Vector Nibble Config.numCells} {illegal : Bool} {es : List WireEvent} {r : BitVec 16}
    (happ : Appended s.runLeft es r) : State.Inv { s with
      sh := sh, illegal := illegal, pend := s.pend ++ es, runLeft := r } := by
  obtain ⟨hlegal, hcs, hstb⟩ := happ.legalFrom_rest
  have hevents : State.events { s with
      sh := sh, illegal := illegal, pend := s.pend ++ es, runLeft := r } = s.events ++ es := by
    simp [State.events]
  have hhold : s.holdCnt = 0 := by
    by_contra hne
    simpa [hpend] using hs.holdInRange.2 hne
  refine { hs with beforeStartup := ?_, holdInRange := ?_, legal := ?_, atRest := ?_ }
  · simp [hstarted]
  · exact ⟨hs.holdInRange.1, fun hne => absurd hhold hne⟩
  · rw [hevents, legalFrom_append, hs.legal, hs.cs_atRest, hs.atRest.2, hlegal]
    rfl
  · rw [hevents, levelAfter_append, levelAfter_append, hs.cs_atRest, hs.atRest.2, hcs]
    exact ⟨by simp [restCs], hstb⟩

/-- The block step keeps the invariant: a `Set` finds the hold counter at 0, and a `Hold` counts within its range (R25, R34, R110). -/
theorem blockStep (hs : s.Inv) : s.blockStep.Inv := by
  have started_of_oe (hoe : s.oe = true) : s.started = true := hs.drivenWhenStarted ▸ hoe
  obtain ⟨hcs, hstb, hdat⟩ := hs.lines
  obtain ⟨hevents, -⟩ := blockStep_keeps s
  rcases blockStep_cases s with ⟨_, e⟩ | ⟨l, b, rest, hoe, hp, e⟩ | ⟨rest, hoe, hp, _, e⟩ |
      ⟨rest, hoe, hp, hcnt, e⟩
  · rwa [e]
  · have hhold : s.holdCnt = 0 := by
      by_contra hne
      simpa [hp] using hs.holdInRange.2 hne
    rw [e] at hevents ⊢
    constructor
    case drivenWhenStarted => simpa using hs.drivenWhenStarted
    case beforeStartup => simp [started_of_oe hoe]
    case startupInRange => simpa using hs.startupInRange
    case holdInRange => simp [hhold, holdCycles_pos]
    case lines => simp [levelAfter_append, levelAfter, hcs, hstb, hdat]
    case legal => rw [hevents]; exact hs.legal
    case pastLegal => simpa using hs.pastLegal
    case atRest => rw [hevents]; simpa using hs.atRest
  · rw [e] at hevents ⊢
    refine { hs with beforeStartup := ?_, holdInRange := ?_, lines := ?_, legal := ?_, atRest := ?_ }
    · simp [started_of_oe hoe]
    · exact ⟨holdCycles_pos, fun hne => absurd rfl hne⟩
    · simp [levelAfter_append, levelAfter, hcs, hstb, hdat]
    · rw [hevents]; exact hs.legal
    · rw [hevents]; exact hs.atRest
  · rw [e]
    refine { hs with beforeStartup := ?_, holdInRange := ?_ }
    · simp [started_of_oe hoe]
    · have := hs.holdInRange.1
      exact ⟨by simp only; omega, fun _ => by simp [hp]⟩

/-- Startup keeps the invariant: until its last cycle the counter stays below STARTUP_CYCLES (R31, R201). -/
theorem startupStep (hs : s.Inv) : s.startupStep.Inv := by
  rcases startupStep_cases s with ⟨_, e⟩ | ⟨_, hcnt, e⟩ | ⟨hstarted, hcnt, e⟩
  · rwa [e]
  · rw [e]
    exact { hs with
      drivenWhenStarted := rfl
      beforeStartup := fun h => absurd h (by simp)
      startupInRange := hcnt.le }
  · obtain ⟨hpend, hrun, htrace, hillegal, hsh, hlt⟩ := hs.beforeStartup hstarted
    rw [e]
    exact { hs with
      beforeStartup := fun _ => ⟨hpend, hrun, htrace, hillegal, hsh, by simp only; omega⟩
      startupInRange := hlt }

theorem runCycle (hs : s.Inv) : s.runCycle.Inv := by
  obtain ⟨h, e⟩ := hostWait_eq s.blockStep.startupStep
  rw [State.runCycle, e]
  exact hs.blockStep.startupStep.withHost h

theorem step (hs : s.Inv) (h : step s = .next t) : t.Inv := by
  rcases step_cases s with ⟨_, e⟩ | ⟨w, hs', _, _, hstarted, hpend, e⟩ | ⟨_, _, e⟩
  · cases e.symm.trans h
    exact hs.takeReset
  · obtain ⟨es, ht, happ⟩ := exec_classify_appends (s := { s with host := hs' }) (e.symm.trans h)
    rw [ht]
    exact (hs.withHost hs').accepted hstarted hpend happ
  · cases e.symm.trans h
    exact hs.runCycle

end State.Inv

/-- Settles O43: a reset, an accepted word and each part of a cycle without acceptance keep the invariant. -/
theorem everyStepKeepsTheLineInvariant : Obligations.EveryStepKeepsTheLineInvariant :=
  fun _ _ hs h => hs.step h

end Sys2Proof.Machine

/-! Only frames BSE may send are sent (R90, R92): each frame it completes decodes to a row of the wire table, and the bits of an open run stay a run frame's. -/

namespace Sys2Proof

/-! ### Reading a frame's bits -/

theorem ofNat_ofBits_bits {w : Nat} (v : BitVec w) : BitVec.ofNat w (ofBits (bits v.toNat w)) = v := by
  apply BitVec.eq_of_toNat_eq
  simp [ofBits_bits]

theorem decodeWire_cmdBits (c : BitVec 8) : decodeWire (cmdBits c) = .ok (.command c) := by
  have htake : (cmdBits c).take 3 = prefixCmd := rfl
  have hdrop : ((cmdBits c).drop 3).take 8 = bits c.toNat 8 :=
    List.take_left' (bits_length _ _)
  simp [decodeWire, htake, hdrop, ofNat_ofBits_bits c]

/-- A bit list that opens with PREFIX_WR is no command frame; header and whole nibbles are a write or run frame (R92). -/
theorem decodeWire_of_prefixWr {bs : List Level} (hprefix : bs.take 3 = prefixWr)
    (hlen : 9 ≤ bs.length) (hmod : (bs.length - 9) % 4 = 0) : decodeWire bs =
      .ok (.writeRun (BitVec.ofNat 6 (ofBits ((bs.drop 3).take 6))) (nibblesOf (bs.drop 9))) := by
  have hne : prefixWr ≠ prefixCmd := by decide
  simp [decodeWire, hprefix, hlen, hmod, hne]

theorem decodeWire_wrBits (a : BitVec 6) (d : Nibble) :
    decodeWire (wrBits a d) = .ok (.writeRun a [d]) := by
  have haddr : ((wrBits a d).drop 3).take 6 = bits a.toNat 6 := List.take_left' (bits_length _ _)
  have hdata : (wrBits a d).drop 9 = nibBits d :=
    List.drop_left' (l₁ := prefixWr ++ bits a.toNat 6) (by simp [prefixWr])
  have hnibbles : nibblesOf (nibBits d) = [d] := by simpa [nibblesOf] using nibblesOf_cons d []
  rw [decodeWire_of_prefixWr rfl (by simp) (by simp), haddr, hdata, hnibbles, ofNat_ofBits_bits]

theorem nibblesOf_length (bs : List Level) : (nibblesOf bs).length = bs.length / 4 := by
  induction bs using nibblesOf.induct with
  | case1 b3 b2 b1 b0 rest ih => simp [nibblesOf, ih]; omega
  | case2 bs hshort =>
    have hlt : bs.length < 4 := by
      match bs, hshort with
      | [], _ | [_], _ | [_, _], _ | [_, _, _], _ => simp
      | b3 :: b2 :: b1 :: b0 :: rest, hshort => exact absurd rfl (hshort b3 b2 b1 b0 rest)
    rw [nibblesOf, Nat.div_eq_of_lt hlt, List.length_nil]
    exact hshort

/-- A run from address 0 of as many nibbles as the run count can say is a row of the wire table: a write frame if it has one nibble, else a run frame (R92). -/
theorem row_writeRun_zero {ds : List Nibble} (h : ds.length < 2 ^ 16) :
    ∃ i, (WireFrame.writeRun 0 ds).row = some i ∧ WellFormed i = true := by
  match ds with
  | [d] => exact ⟨_, rfl, rfl⟩
  | [] => exact ⟨_, rfl, rfl⟩
  | d :: d' :: ds => exact ⟨_, rfl, decide_eq_true h⟩

end Sys2Proof

namespace Sys2Proof.Machine

/-! ### Frames BSE may send -/

theorem bseFrame_cmdBits (c : BitVec 8) : BseFrame (cmdBits c) :=
  ⟨_, _, decodeWire_cmdBits c, rfl, rfl⟩

theorem bseFrame_wrBits (a : BitVec 6) (d : Nibble) : BseFrame (wrBits a d) :=
  ⟨_, _, decodeWire_wrBits a d, rfl, rfl⟩

theorem openRunBits_iff (bs : List Level) : openRunBits bs = true ↔
    bs.take 9 = runHdrBits ∧ 9 ≤ bs.length ∧ (bs.length - 9) % 4 = 0 := by
  simp [openRunBits, and_assoc]

/-- The bits of an open run are a frame as they stand, at whichever nibble it is closed (R89, R92). -/
theorem bseFrame_of_openRunBits {bs : List Level} (h : openRunBits bs = true)
    (hfits : (bs.length - 9) / 4 < 2 ^ 16) : BseFrame bs := by
  obtain ⟨hhdr, hlen, hmod⟩ := (openRunBits_iff bs).mp h
  have hprefix : bs.take 3 = prefixWr := by
    simpa [List.take_take, runHdrBits, prefixWr] using congrArg (List.take 3) hhdr
  have haddr : (bs.drop 3).take 6 = bits 0 6 := by
    rw [List.take_drop, hhdr]; rfl
  have hcount : (nibblesOf (bs.drop 9)).length < 2 ^ 16 := by
    rwa [nibblesOf_length, List.length_drop]
  obtain ⟨i, hrow, hwf⟩ := row_writeRun_zero hcount
  refine ⟨_, i, decodeWire_of_prefixWr hprefix hlen hmod, ?_, hwf⟩
  rw [haddr, ofBits_bits]
  exact hrow

theorem openRunBits_append_nibBits {bs : List Level} (h : openRunBits bs = true) (d : Nibble) :
    openRunBits (bs ++ nibBits d) = true := by
  obtain ⟨hhdr, hlen, hmod⟩ := (openRunBits_iff bs).mp h
  rw [openRunBits_iff, List.take_append_of_le_length hlen, List.length_append, nibBits_length]
  exact ⟨hhdr, by omega, by omega⟩

theorem SentByRequest.bseFrame {bs : List Level} (h : SentByRequest bs) : BseFrame bs := by
  rcases h with ⟨c, rfl⟩ | ⟨a, d, rfl⟩ | rfl
  · exact bseFrame_cmdBits c
  · exact bseFrame_wrBits a d
  · exact bseFrame_of_openRunBits (by decide) (by simp)

/-! ### What an observer has read -/

/-- An observer has read only frames BSE may send, and has one open exactly while `r` words are owed to a run: what `State.FramesInv` says of the events since the last reset. -/
structure Observer.ReadsBse (o : Observer) (r : BitVec 16) : Prop where
  /-- Every complete frame is one BSE may send. -/
  complete : ∀ bs ∈ o.complete, BseFrame bs
  /-- No word owed: no frame open. -/
  closed : r = 0 → o.current = none
  /-- Words owed: the open frame is a run's, and has room for them. -/
  opened : r ≠ 0 → ∃ bs, o.current = some bs ∧ openRunBits bs = true ∧
    (bs.length - 9) / 4 + r.toNat < 2 ^ 16

theorem framesInv_iff (s : State) : s.FramesInv ↔
    (observe s.events).ReadsBse s.runLeft ∧ ∀ es ∈ s.past, ∀ bs ∈ framesOf es, BseFrame bs :=
  ⟨fun h => ⟨⟨h.complete, h.closed, h.opened⟩, h.past⟩,
    fun ⟨hread, hpast⟩ => ⟨hread.complete, hpast, hread.closed, hread.opened⟩⟩

theorem Observer.ReadsBse.start : Observer.start.ReadsBse 0 :=
  ⟨by simp [Observer.start], fun _ => rfl, fun h => absurd rfl h⟩

/-- What an accepted word appends is read as whole frames BSE may send, and as the opening, the next nibble or the end of a run frame (R87-R90, R114, R115). -/
theorem Appended.readsBse {r r' : BitVec 16} {es : List WireEvent} (h : Appended r es r')
    {o : Observer} (ho : o.ReadsBse r) : (es.foldl Observer.see o).ReadsBse r' := by
  obtain ⟨current, complete⟩ := o
  cases h with
  | frames fs hfs =>
    obtain rfl : current = none := ho.closed rfl
    rw [see_frames]
    exact ⟨List.forall_mem_append.mpr ⟨ho.complete, fun bs hbs => (hfs bs hbs).bseFrame⟩,
      fun _ => rfl, fun h => absurd rfl h⟩
  | opening _ hn =>
    have hread : runOpening.foldl Observer.see ⟨current, complete⟩ = ⟨some runHdrBits, complete⟩ :=
      see_bitsEv runHdrBits [] complete
    rw [hread]
    exact ⟨ho.complete, fun h => absurd h hn,
      fun _ => ⟨_, rfl, by decide, by simpa using r'.isLt⟩⟩
  | nibble _ d hr hr' =>
    obtain ⟨bs, rfl, hopen, hfits⟩ := ho.opened hr
    rw [see_bitsEv]
    refine ⟨ho.complete, fun h => absurd h hr', fun _ =>
      ⟨_, rfl, openRunBits_append_nibBits hopen d, ?_⟩⟩
    obtain ⟨-, hlen, -⟩ := (openRunBits_iff bs).mp hopen
    have hleft : (r - 1).toNat + 1 = r.toNat := by bv_omega
    rw [List.length_append, nibBits_length]
    omega
  | lastNibble d =>
    obtain ⟨bs, rfl, hopen, hfits⟩ := ho.opened (by decide)
    have hread : (bitsEv (nibBits d) ++ [WireEvent.set .cs true]).foldl Observer.see ⟨some bs, complete⟩ =
        ⟨none, complete ++ [bs ++ nibBits d]⟩ := by
      rw [List.foldl_append, see_bitsEv]; rfl
    rw [hread]
    refine ⟨List.forall_mem_append.mpr ⟨ho.complete, List.forall_mem_singleton.mpr ?_⟩,
      fun _ => rfl, fun h => absurd rfl h⟩
    obtain ⟨-, hlen, -⟩ := (openRunBits_iff bs).mp hopen
    refine bseFrame_of_openRunBits (openRunBits_append_nibBits hopen d) ?_
    have : (1 : BitVec 16).toNat = 1 := rfl
    rw [List.length_append, nibBits_length]
    omega

/-! ### The invariant -/

theorem reset_framesInv : State.reset.FramesInv :=
  (framesInv_iff _).mpr ⟨Observer.ReadsBse.start, by simp [State.reset]⟩

/-- Settles O44: at reset no event has been seen. -/
theorem frameInvariantHoldsAtReset : Obligations.FrameInvariantHoldsAtReset := reset_framesInv

namespace State.FramesInv

variable {s t : State}

/-- The frames sent whole are among the frames of all events (R92). -/
theorem spans (hs : s.FramesInv) : ∀ es ∈ s.spans, ∀ bs ∈ framesOf es, BseFrame bs := by
  intro es hes bs hbs
  unfold State.spans at hes
  split at hes
  · exact hs.past es hes bs hbs
  · rcases List.mem_append.mp hes with hpast | hlast
    · exact hs.past es hpast bs hbs
    · rw [List.mem_singleton.mp hlast] at hbs
      exact hs.complete bs ((framesOf_prefix s.trace s.pend).subset hbs)

theorem takeReset (hs : s.FramesInv) : s.takeReset.FramesInv :=
  (framesInv_iff _).mpr ⟨Observer.ReadsBse.start, hs.spans⟩

/-- The invariant is kept when an accepted word's events join what is pending (R38, R83). -/
theorem accepted (hs : s.FramesInv) {es : List WireEvent} (happ : Appended s.runLeft es t.runLeft)
    (hevents : t.events = s.events ++ es) (hpast : t.past = s.past) : t.FramesInv := by
  obtain ⟨hread, hold⟩ := (framesInv_iff s).mp hs
  refine (framesInv_iff t).mpr ⟨?_, hpast ▸ hold⟩
  rw [hevents, observe_append]
  exact happ.readsBse hread

theorem runCycle (hs : s.FramesInv) : s.runCycle.FramesInv := by
  obtain ⟨hevents, _, hrun, _, _, _, hpast⟩ := runCycle_keeps s
  rw [framesInv_iff, hevents, hrun, hpast]
  exact (framesInv_iff s).mp hs

theorem step (hs : s.FramesInv) (h : step s = .next t) : t.FramesInv := by
  rcases step_cases s with ⟨_, e⟩ | ⟨w, hs', _, _, _, _, e⟩ | ⟨_, _, e⟩
  · cases e.symm.trans h
    exact hs.takeReset
  · obtain ⟨es, ht, happ⟩ := exec_classify_appends (s := { s with host := hs' }) (e.symm.trans h)
    refine hs.accepted happ ?_ (by rw [ht])
    rw [ht]
    simp [State.events]
  · cases e.symm.trans h
    exact hs.runCycle

end State.FramesInv

/-- Settles O45: what each accepted word appends keeps the observer's reading, and nothing else changes the events of a stretch between resets. -/
theorem everyStepKeepsTheFrameInvariant : Obligations.EveryStepKeepsTheFrameInvariant :=
  fun _ _ hs h => hs.step h

end Sys2Proof.Machine

/-! What a word is (R83) and what the instruction it names can change (R23, R58, R110). -/

namespace Sys2Proof

/-! ### What a word is -/

/-- An instruction of one of the eleven reserved rows (R85). -/
def Instr.IsReserved (i : Instr) : Prop :=
  ∃ a d, i = .reserved0 a d ∨ i = .reserved6 a d ∨ i = .reserved7 a d ∨ i = .reserved8 a d ∨
    i = .reserved9 a d ∨ i = .reservedA a d ∨ i = .reservedB a d ∨ i = .reservedC a d ∨
    i = .reservedD a d ∨ i = .reservedE a d ∨ i = .reservedF a d

/-- The OP values of the reserved rows (R81, R85). -/
def ReservedOp (w : Word) : Prop := (opField w).toNat = 0 ∨ 6 ≤ (opField w).toNat

section
variable {w : Word}

theorem decodeRequest_cmd (h : opField w = 0x1) :
    decodeRequest w = .cmd (aField w) (dField w) := by simp [decodeRequest, h]

theorem decodeRequest_wrcell (h : opField w = 0x2) :
    decodeRequest w = .wrcell (aField w) (dField w) := by simp [decodeRequest, h]

theorem decodeRequest_wrrun (h : opField w = 0x3) :
    decodeRequest w = .wrrun (aField w) (dField w) := by simp [decodeRequest, h]

theorem decodeRequest_setseg (h : opField w = 0x4) :
    decodeRequest w = .setseg (aField w) (dField w) := by simp [decodeRequest, h]

theorem decodeRequest_clrall (h : opField w = 0x5) :
    decodeRequest w = .clrall (aField w) (dField w) := by simp [decodeRequest, h]

theorem decodeRequest_isReserved (h : ReservedOp w) : (decodeRequest w).IsReserved := by
  unfold ReservedOp at h
  unfold decodeRequest
  split
  case h_2 | h_3 | h_4 | h_5 | h_6 => omega
  all_goals exact ⟨aField w, dField w, by simp⟩

end

theorem opField_cases (w : Word) : opField w = 0x1 ∨ opField w = 0x2 ∨ opField w = 0x3 ∨
    opField w = 0x4 ∨ opField w = 0x5 ∨ ReservedOp w := by
  unfold ReservedOp
  bv_omega

theorem classify_inRun {r : BitVec 16} (h : 0 < r.toNat) (w : Word) : classify r w = .nib w :=
  if_pos h

theorem classify_outsideRun {r : BitVec 16} (h : r.toNat = 0) (w : Word) :
    classify r w = decodeRequest w := if_neg (by omega)

/-- What a word is, in each run context and for each OP (R81, R83). -/
inductive Classified (r : BitVec 16) (w : Word) : Instr → Prop where
  /-- Within a run every word is a data word. -/
  | nib (hr : 0 < r.toNat) : Classified r w (.nib w)
  /-- OP 0x1. -/
  | cmd (hr : r.toNat = 0) (hop : opField w = 0x1) : Classified r w (.cmd (aField w) (dField w))
  /-- OP 0x2. -/
  | wrcell (hr : r.toNat = 0) (hop : opField w = 0x2) :
      Classified r w (.wrcell (aField w) (dField w))
  /-- OP 0x3. -/
  | wrrun (hr : r.toNat = 0) (hop : opField w = 0x3) : Classified r w (.wrrun (aField w) (dField w))
  /-- OP 0x4. -/
  | setseg (hr : r.toNat = 0) (hop : opField w = 0x4) :
      Classified r w (.setseg (aField w) (dField w))
  /-- OP 0x5. -/
  | clrall (hr : r.toNat = 0) (hop : opField w = 0x5) :
      Classified r w (.clrall (aField w) (dField w))
  /-- OP 0x0 or 0x6 to 0xF. -/
  | reserved (hr : r.toNat = 0) (hop : ReservedOp w) {i : Instr} (hi : i.IsReserved) :
      Classified r w i

theorem classified (r : BitVec 16) (w : Word) : Classified r w (classify r w) := by
  rcases Nat.eq_zero_or_pos r.toNat with hr | hr
  · rw [classify_outsideRun hr]
    rcases opField_cases w with hop | hop | hop | hop | hop | hop
    · rw [decodeRequest_cmd hop]; exact .cmd hr hop
    · rw [decodeRequest_wrcell hop]; exact .wrcell hr hop
    · rw [decodeRequest_wrrun hop]; exact .wrrun hr hop
    · rw [decodeRequest_setseg hop]; exact .setseg hr hop
    · rw [decodeRequest_clrall hop]; exact .clrall hr hop
    · exact .reserved hr hop (decodeRequest_isReserved hop)
  · rw [classify_inRun hr]
    exact .nib hr

theorem Instr.IsReserved.wellFormed {i : Instr} (h : i.IsReserved) : WellFormed i = true := by
  obtain ⟨a, d, h⟩ := h
  rcases h with rfl | rfl | rfl | rfl | rfl | rfl | rfl | rfl | rfl | rfl | rfl <;> rfl

namespace Classified

variable {r : BitVec 16} {w : Word} {i : Instr}

/-- Every word is a well-formed instruction (R56). -/
theorem wellFormed (h : Classified r w i) : WellFormed i = true := by
  cases h with
  | reserved _ _ hi => exact hi.wellFormed
  | nib | cmd | wrcell | wrrun | setseg | clrall => rfl

/-- A word is a data word only within a run, and then it is that word (R83). -/
theorem of_nib {v : Word} (h : Classified r w (.nib v)) : 0 < r.toNat ∧ v = w := by
  cases h with
  | nib hr => exact ⟨hr, rfl⟩
  | reserved _ _ hi => simp [Instr.IsReserved] at hi

theorem of_setseg {a : BitVec 12} {d : BitVec 16} (h : Classified r w (.setseg a d)) :
    r.toNat = 0 ∧ opField w = 0x4 := by
  cases h with
  | setseg hr hop => exact ⟨hr, hop⟩
  | reserved _ _ hi => simp [Instr.IsReserved] at hi

theorem of_clrall {a : BitVec 12} {d : BitVec 16} (h : Classified r w (.clrall a d)) :
    r.toNat = 0 ∧ opField w = 0x5 := by
  cases h with
  | clrall hr hop => exact ⟨hr, hop⟩
  | reserved _ _ hi => simp [Instr.IsReserved] at hi

end Classified

/-- A word is of a reserved row exactly outside a run, with a reserved OP (R83, R85). -/
theorem isReserved_classify_iff (r : BitVec 16) (w : Word) :
    (classify r w).IsReserved ↔ r.toNat = 0 ∧ ReservedOp w := by
  constructor
  · intro hi
    have h := classified r w
    generalize classify r w = i at hi h
    cases h with
    | reserved hr hop _ => exact ⟨hr, hop⟩
    | nib | cmd | wrcell | wrrun | setseg | clrall => simp [Instr.IsReserved] at hi
  · rintro ⟨hr, hop⟩
    rw [classify_outsideRun hr]
    exact decodeRequest_isReserved hop

end Sys2Proof

namespace Sys2Proof.Machine

/-! ### What an instruction can change -/

/-- The eleven reserved rows have one meaning (R171). -/
theorem exec_reserved {i : Instr} (h : i.IsReserved) (s : State) :
    exec i s = .next s.raiseIllegal := by
  obtain ⟨a, d, h⟩ := h
  rcases h with rfl | rfl | rfl | rfl | rfl | rfl | rfl | rfl | rfl | rfl | rfl <;> rfl

/-- What an instruction can do to the state (R23, R58, R85, R114, R115, R171). -/
inductive Effect (s : State) : Instr → State → Prop where
  /-- Send events. -/
  | emits (i : Instr) (es : List WireEvent) : Effect s i (s.emit es)
  /-- SETSEG and CLRALL: send events and write the shadow. -/
  | writesShadow {i : Instr} (hi : ∃ a d, i = .setseg a d ∨ i = .clrall a d)
      (sh : Vector Nibble Config.numCells) (es : List WireEvent) :
      Effect s i { s with sh := sh, pend := s.pend ++ es }
  /-- WRRUN and NIB: send events and change the run count. -/
  | countsRun {i : Instr} (hi : (∃ a d, i = .wrrun a d) ∨ ∃ w, i = .nib w) (r : BitVec 16)
      (es : List WireEvent) : Effect s i { s with pend := s.pend ++ es, runLeft := r }
  /-- A reserved row: set ILLEGAL. -/
  | setsIllegal {i : Instr} (hi : i.IsReserved) : Effect s i s.raiseIllegal

theorem exec_effect {i : Instr} {s t : State} (h : exec i s = .next t) : Effect s i t := by
  cases i with
  | cmd a d | wrcell a d | wireCommandFrame c | wireWriteFrame a d | wireRunFrame ds =>
    cases h
    exact .emits _ _
  | wrrun a d =>
    rw [exec_wrrun, List.append_assoc] at h
    cases h
    exact .countsRun (.inl ⟨a, d, rfl⟩) _ _
  | nib w =>
    rw [exec_nib, List.append_assoc] at h
    split at h
    · cases h
    · cases h
      exact .countsRun (.inr ⟨w, rfl⟩) _ _
  | setseg a d =>
    rw [exec_setseg] at h
    cases h
    split
    · exact .writesShadow ⟨a, d, .inl rfl⟩ _ _
    · simpa [State.emit] using Effect.emits (s := s) (.setseg a d) []
  | clrall a d =>
    cases h
    exact .writesShadow ⟨a, d, .inr rfl⟩ _ _
  | reserved0 a d | reserved6 a d | reserved7 a d | reserved8 a d | reserved9 a d | reservedA a d
  | reservedB a d | reservedC a d | reservedD a d | reservedE a d | reservedF a d =>
    cases h
    exact .setsIllegal ⟨a, d, by simp⟩

/-- Settles O23: each of the four effects an instruction can have keeps what the statement says. -/
theorem instructionsTouchOnlyTheirOwnState : Obligations.InstructionsTouchOnlyTheirOwnState := by
  intro i s t h
  cases exec_effect h with
  | emits es => simp [State.emit]
  | writesShadow hi sh es => simp [hi]
  | countsRun hi r es => simp [hi]
  | setsIllegal hi => exact ⟨rfl, List.prefix_refl _, nofun, nofun, fun _ => hi⟩

/-- ILLEGAL is set by the reserved rows and kept by every other instruction (R29, R171). -/
theorem exec_illegal_iff {i : Instr} {s t : State} (h : exec i s = .next t) :
    t.illegal = true ↔ s.illegal = true ∨ i.IsReserved := by
  by_cases hi : i.IsReserved
  · rw [exec_reserved hi] at h
    cases h
    simp [hi]
  · cases exec_effect h with
    | setsIllegal hi' => exact absurd hi' hi
    | emits | writesShadow | countsRun => simp [hi]

/-- An accepted word is performed: a data word is accepted only within a run (R83, R170). -/
theorem exec_classify_next (s : State) (w : Word) :
    ∃ t, exec (classify s.runLeft w) s = .next t := by
  have h := classified s.runLeft w
  generalize classify s.runLeft w = i at h
  cases h with
  | nib hr =>
    rw [exec_nib, if_neg (by omega)]
    exact ⟨_, rfl⟩
  | wrrun => exact ⟨_, exec_wrrun _ _ s⟩
  | reserved _ _ hi => exact ⟨_, exec_reserved hi s⟩
  | cmd | wrcell | setseg | clrall => exact ⟨_, rfl⟩

/-- Settles O14: the guard of `exec_nib`, and a word is classified as a data word only within a run. -/
theorem nibIsNeverPerformedOutsideARun : Obligations.NibIsNeverPerformedOutsideARun := by
  refine ⟨fun w s hr => ?_, fun owed w v h => ?_⟩
  · rw [exec_nib, if_pos hr]
  · exact (h ▸ classified owed w).of_nib

/-- Settles O5: every word is classified as a well-formed instruction, and a ready block takes it. -/
theorem stepRunsTheDecodedInstruction : Obligations.StepRunsTheDecodedInstruction := by
  rintro s w h i hhost hready rfl
  exact ⟨(classified _ _).wellFormed, step_of_offer hhost hready⟩

end Sys2Proof.Machine

/-! Status, readback and line ports (R24-R31), and the values reset leaves (R36, R200). -/

namespace Sys2Proof.Machine

/-! ### Status -/

theorem busy_iff (s : State) : s.busy = true ↔ s.pend ≠ [] ∨ 0 < s.runLeft.toNat := by
  simp [State.busy]

theorem getLsbD_append_ofBool {n : Nat} (x : BitVec n) (b : Bool) (k : Nat) :
    (x ++ BitVec.ofBool b).getLsbD k = if k = 0 then b else x.getLsbD (k - 1) := by
  rw [BitVec.getLsbD_append]
  cases k <;> simp

/-- The bits of `stat` (R27). -/
theorem stat_getLsbD (s : State) (k : Nat) : s.stat.getLsbD k =
    if k = 0 then s.busy else if k = 1 then s.illegal else if k = 2 then s.runOpen
    else if k = 3 then s.started else false := by
  calc s.stat.getLsbD k
      = BitVec.getLsbD (w := 4 + 1 + 1 + 1 + 1) (0#4 ++ BitVec.ofBool s.started ++
          BitVec.ofBool s.runOpen ++ BitVec.ofBool s.illegal ++ BitVec.ofBool s.busy) k := rfl
    _ = _ := by
      rw [getLsbD_append_ofBool, getLsbD_append_ofBool, getLsbD_append_ofBool,
        getLsbD_append_ofBool]
      match k with
      | 0 | 1 | 2 | 3 => rfl
      | k + 4 => simp

/-- Settles O34, from the one equation for the bits of `stat`. -/
theorem statusRegisterBits : Obligations.StatusRegisterBits := by
  intro s
  simp only [stat_getLsbD]
  refine ⟨busy_iff s, rfl, by simp [State.runOpen], rfl, fun k hk => ?_⟩
  have : k ≠ 0 ∧ k ≠ 1 ∧ k ≠ 2 ∧ k ≠ 3 := by omega
  simp [this]

/-! ### Ports -/

theorem held_of_released {s : State} (h : s.rstN = true) : s.held = s := if_pos h

theorem held_of_inReset {s : State} (h : s.rstN = false) :
    s.held = { State.reset with host := s.host } := by simp [State.held, h]

@[simp] theorem reset_readCell (c : Nat) : State.reset.readCell c = 0 :=
  clearCells_readCell State.reset c

/-- A cell past the last one reads 0 (R24). -/
theorem readCell_of_ge (s : State) {c : Nat} (h : 40 ≤ c) : s.readCell c = 0 := by
  have : s.sh[c]? = none := Vector.getElem?_eq_none h
  simp [State.readCell, this]

/-- Settles O35: BUSY is read off `pend` and `run_left`, which startup leaves empty (R36). -/
theorem busyMeansWorkLeft : Obligations.BusyMeansWorkLeft := by
  refine ⟨busy_iff, fun s hr => ?_, fun s hs hstarted => ?_, fun s hbusy _ => ?_⟩
  · rw [State.statPort, held_of_inReset hr, stat_getLsbD]
    rfl
  · obtain ⟨hpend, hrun, _⟩ := hs.beforeStartup hstarted
    simp [State.busy, hpend, hrun]
  · obtain ⟨hpend, hrun⟩ : s.pend = [] ∧ s.runLeft.toNat = 0 := by
      simpa [State.busy] using hbusy
    exact ⟨by simp [State.events, hpend], BitVec.eq_of_toNat_eq hrun⟩

/-- Settles O38: the port reads a cell of the held state, which in reset is the reset state. -/
theorem readbackShowsTheShadow : Obligations.ReadbackShowsTheShadow := by
  intro s addr
  refine ⟨fun hr v hv => ?_, fun hge => readCell_of_ge _ hge, fun hr => ?_⟩
  · rw [State.shData, held_of_released hr, State.readCell, hv]
    rfl
  · rw [State.shData, held_of_inReset hr]
    exact reset_readCell _

/-- Settles O39: the held state has `oe = 0` in reset, and else its own `oe`. -/
theorem linePortsShowTheLineRegisters : Obligations.LinePortsShowTheLineRegisters := by
  intro s
  constructor
  · intro hr hoe
    simp [State.csPort, State.stbPort, State.datPort, held_of_released hr, driven, hoe]
  · intro h
    have hoe : s.held.oe = false := by
      cases hr : s.rstN with
      | false => rw [held_of_inReset hr]; rfl
      | true => rw [held_of_released hr]; simpa [hr] using h
    simp [State.csPort, State.stbPort, State.datPort, driven, hoe]

/-! ### Reset -/

theorem step_of_inReset {s : State} (h : s.rstN = false) : step s = .next s.takeReset := by
  have hedge : s.edge = .inReset := by simp [State.edge, h]
  rw [step, hedge]

theorem reset_stat : State.reset.stat = 0 := by decide

/-- Settles O1: the step is `takeReset`, and no event is left for the controller to have seen. -/
theorem resetTakesEveryItemToItsValue : Obligations.ResetTakesEveryItemToItsValue := by
  intro s hr
  refine ⟨s.takeReset, step_of_inReset hr, fun c _ => reset_readCell c, rfl, rfl, rfl, rfl, rfl,
    rfl, rfl, rfl, rfl, rfl, reset_stat, ?_, fun c hc => ?_⟩
  · simp [State.reqReady, State.reset]
  · have hcontroller : s.takeReset.controller = Controller.unknown := rfl
    have hc64 : c < 64 := by omega
    simp [hcontroller, Controller.unknown, hc64]

end Sys2Proof.Machine

/-! What a step keeps and what it changes: ILLEGAL, the shadow, `started` and `oe`, an offered word, and the cycles of startup (R23, R26, R29, R31, R38, R201, R205). -/

namespace Sys2Proof.Machine

/-! ### ILLEGAL -/

theorem step_of_accept {s : State} {w : Word} (h : s.edge = .accept w) :
    step s = exec (classify s.runLeft w) s.hostNext := by rw [step, h]

theorem step_of_run {s : State} (h : s.edge = .run) : step s = .next s.runCycle := by
  rw [step, h]

/-- No instruction looks at ILLEGAL (R29). -/
theorem exec_raiseIllegal {i : Instr} {s t : State} (h : exec i s = .next t) :
    exec i s.raiseIllegal = .next t.raiseIllegal := by
  cases i with
  | wrrun a d =>
    rw [exec_wrrun] at h ⊢
    cases h
    rfl
  | nib w =>
    rw [exec_nib] at h ⊢
    split at h
    · cases h
    · rename_i hr
      cases h
      exact if_neg hr
  | setseg a d =>
    rw [exec_setseg] at h ⊢
    cases h
    split <;> rfl
  | _ => cases h; rfl

/-- The block step does not look at ILLEGAL (R29). -/
theorem blockStep_raiseIllegal (s : State) :
    s.raiseIllegal.blockStep = s.blockStep.raiseIllegal := by
  unfold State.blockStep State.raiseIllegal
  simp only
  split
  · rename_i e rest _ _
    cases e with
    | set l b => cases l <;> rfl
    | hold => simp only [State.perform]; split <;> rfl
  · rfl

/-- Startup does not look at ILLEGAL (R29). -/
theorem startupStep_raiseIllegal (s : State) :
    s.raiseIllegal.startupStep = s.startupStep.raiseIllegal := by
  unfold State.startupStep State.raiseIllegal
  simp only
  split
  · rfl
  · split <;> rfl

theorem hostWait_raiseIllegal (s : State) : s.raiseIllegal.hostWait = s.hostWait.raiseIllegal := by
  unfold State.hostWait State.raiseIllegal
  simp only
  split <;> rfl

/-- No step without reset looks at ILLEGAL (R29). -/
theorem step_raiseIllegal {s t : State} (hr : s.rstN = true) (h : step s = .next t) :
    step s.raiseIllegal = .next t.raiseIllegal := by
  rcases edge_cases s with ⟨_, hr'⟩ | ⟨w, _, he, _⟩ | ⟨he, _⟩
  · simp [hr] at hr'
  · rw [step_of_accept he] at h
    rw [step_of_accept (show s.raiseIllegal.edge = .accept w from he)]
    exact exec_raiseIllegal h
  · rw [step_of_run he] at h
    cases h
    rw [step_of_run (show s.raiseIllegal.edge = .run from he), State.runCycle, State.runCycle,
      blockStep_raiseIllegal, startupStep_raiseIllegal, hostWait_raiseIllegal]

/-- Settles O36: an accepted word sets ILLEGAL exactly when its row is reserved, and no step looks at it. -/
theorem illegalIsStickyUntilReset : Obligations.IllegalIsStickyUntilReset := by
  refine ⟨fun s t h => ?_, fun s t hr h => step_raiseIllegal hr h⟩
  rcases edge_cases s with ⟨_, hr⟩ | ⟨w, _, he, _, hr, _⟩ | ⟨he, hr⟩
  · cases (step_of_inReset hr).symm.trans h
    simp [hr, State.reset]
  · rw [step_of_accept he] at h
    simp [exec_illegal_iff h, isReserved_classify_iff, ReservedOp, he, hr]
  · cases (step_of_run he).symm.trans h
    obtain ⟨_, _, _, hillegal, _⟩ := runCycle_keeps s
    simp [hillegal, he, hr]

/-! ### The shadow -/

/-- Settles O37: a step that accepts a word changes the shadow only where its instruction does, and a cycle without acceptance never. -/
theorem onlySetsegClrallAndResetWriteTheShadow :
    Obligations.OnlySetsegClrallAndResetWriteTheShadow := by
  intro s t h hsh
  rcases edge_cases s with ⟨_, hr⟩ | ⟨w, _, he, _⟩ | ⟨he, _⟩
  · exact .inl hr
  · right
    rw [step_of_accept he] at h
    obtain ⟨_, _, hwrites, _⟩ := instructionsTouchOnlyTheirOwnState _ _ _ h
    have hw := classified s.runLeft w
    obtain ⟨a, d, hi | hi⟩ := hwrites hsh <;> rw [hi] at hw
    · exact ⟨w, he, hw.of_setseg.1, .inl hw.of_setseg.2⟩
    · exact ⟨w, he, hw.of_clrall.1, .inr hw.of_clrall.2⟩
  · cases (step_of_run he).symm.trans h
    obtain ⟨_, hkept, _⟩ := runCycle_keeps s
    exact absurd hkept hsh

/-! ### `started` and `oe` -/

/-- Settles O59: an accepted word touches neither, a cycle without acceptance only sets them, and reset clears both. -/
theorem startedAndDrivenUntilReset : Obligations.StartedAndDrivenUntilReset := by
  intro s t h
  rcases step_cases s with ⟨hr, e⟩ | ⟨w, hs, _, hr, _, _, e⟩ | ⟨hr, _, e⟩
  · cases e.symm.trans h
    simp [hr, State.reset]
  · obtain ⟨es, ht, _⟩ := exec_classify_appends (s := { s with host := hs }) (e.symm.trans h)
    rw [ht]
    simp [hr]
  · cases e.symm.trans h
    simp only [hr, forall_const]
    exact ⟨runCycle_started s, nofun⟩

/-! ### An offered word -/

theorem reqReady_iff (s : State) :
    s.reqReady = true ↔ s.rstN = true ∧ s.started = true ∧ s.pend = [] := by
  simp [State.reqReady, and_assoc]

/-- Settles O6: a word is accepted by an instruction that answers, which takes it from the host's script; else the step is the block's own work, which does not look at the host. -/
theorem offeredWordWaitsUntilReady : Obligations.OfferedWordWaitsUntilReady := by
  refine ⟨reqReady_iff, fun s w h hhost => ⟨fun hready => ?_, fun hready => ?_⟩⟩
  · obtain ⟨t, ht⟩ := exec_classify_next { s with host := h } w
    obtain ⟨es, heq, _⟩ := exec_classify_appends ht
    exact ⟨t, (step_of_offer hhost hready).trans ht, by rw [heq]⟩
  · have hstep := step_of_steady (.inr ⟨w, h, hhost⟩) hready
    have hrest : State.reqReady { s with host := [] } = false := by
      simpa [State.reqReady, State.rstN, hhost] using hready
    have hstep' := step_of_steady (s := { s with host := [] }) (.inl rfl) hrest
    rw [blockStep_withHost, startupStep_withHost] at hstep'
    have hthost : s.blockStep.startupStep.host = s.host := by
      rw [startupStep_host, blockStep_host]
    obtain ⟨hevents, hsh, hrun, hillegal, -⟩ := blockStep_keeps s
    refine ⟨_, hstep, hthost, ?_, ?_, ?_, ?_, _, hstep', by simp [← hthost]⟩
    all_goals rw [startupStep_eq]
    · exact hsh
    · exact hrun
    · exact hillegal
    · exact hevents

/-! ### Startup -/

theorem blockStep_of_released {s : State} (h : s.oe = false) : s.blockStep = s := by
  simp [State.blockStep, h]

/-- Before startup is over a step counts one cycle, and nothing else (R201). -/
theorem runFor_before_startup {s : State} (hstarted : s.started = false) (hoe : s.oe = false)
    (hhost : s.hostSteady) (k : Nat) (hk : s.startupCnt + k < Config.startupCycles) :
    runFor k s = .next { s with startupCnt := s.startupCnt + k } := by
  induction k generalizing s with
  | zero => rfl
  | succ k ih =>
    have hready : s.reqReady = false := by simp [State.reqReady, hstarted]
    have hne : s.startupCnt + 1 ≠ Config.startupCycles := by omega
    have hstep : step s = .next { s with startupCnt := s.startupCnt + 1 } := by
      rw [step_of_steady hhost hready, blockStep_of_released hoe]
      simp [State.startupStep, hstarted, hne]
    have hcnt : s.startupCnt + 1 + k = s.startupCnt + (k + 1) := by omega
    rw [runFor_succ_of_next hstep,
      ih (s := { s with startupCnt := s.startupCnt + 1 }) hstarted hoe hhost (by simp only; omega),
      hcnt]

/-- The last cycle of startup drives the lines and opens the port, together (R31, R201). -/
theorem step_ends_startup {s : State} (hstarted : s.started = false) (hoe : s.oe = false)
    (hhost : s.hostSteady) (hcnt : s.startupCnt + 1 = Config.startupCycles) : step s =
      .next { s with startupCnt := Config.startupCycles, oe := true, started := true } := by
  have hready : s.reqReady = false := by simp [State.reqReady, hstarted]
  rw [step_of_steady hhost hready, blockStep_of_released hoe]
  simp [State.startupStep, hstarted, hcnt]

/-- Settles O3: all cycles of startup but the last only count. -/
theorem startupLastsStartupCycles : Obligations.StartupLastsStartupCycles := by
  intro s hstarted hoe hpend hcnt hhost
  have hcount (k : Nat) (hk : k < Config.startupCycles) :
      runFor k s = .next { s with startupCnt := k } := by
    simpa [hcnt] using runFor_before_startup hstarted hoe hhost k (by omega)
  constructor
  · refine ⟨_, ?_, ?_, rfl⟩
    · have hlast := hcount Config.startupCyclesPred (Nat.lt_succ_self _)
      calc runFor Config.startupCycles s
          = runFor 1 { s with startupCnt := Config.startupCyclesPred } := runFor_add hlast 1
        _ = _ := runFor_one_of_next (step_ends_startup hstarted hoe hhost rfl)
    · rw [stat_getLsbD]
      rfl
  · intro k hk
    refine ⟨_, hcount k hk, rfl, hstarted, ?_, hoe, ?_⟩
    · rw [stat_getLsbD]
      exact hstarted
    · simp [State.reqReady, hstarted]

end Sys2Proof.Machine

/-! Whole requests (R38, R59, R213, R214): an idle block takes the host's last word, and the clocked block performs the events it appended in exactly their cycles. -/

namespace Sys2Proof.Machine

/-! ### The clocked block under a steady host -/

/-- A started block with an event pending spends a cycle on it, the host being steady (R110). -/
theorem step_performs {s : State} {e : WireEvent} {rest : List WireEvent} (hst : s.started = true)
    (hoe : s.oe = true) (hhost : s.hostSteady) (hpend : s.pend = e :: rest) :
    step s = .next (s.perform e rest) := by
  have hready : s.reqReady = false := by simp [State.reqReady, hpend]
  have hblock : s.blockStep = s.perform e rest := by simp [State.blockStep, hoe, hpend]
  have hstarted : s.blockStep.started = true := by
    obtain ⟨_, _, _, _, hkept, _⟩ := blockStep_keeps s
    rw [hkept, hst]
  rw [step_of_steady hhost hready, State.startupStep, if_pos hstarted, hblock]

/-- A `Hold` counts its cycles but the last (R34, R110). -/
theorem runFor_within_hold {s : State} {rest : List WireEvent} (hst : s.started = true)
    (hoe : s.oe = true) (hhost : s.hostSteady) (hpend : s.pend = .hold :: rest) (k : Nat)
    (hk : s.holdCnt + k < Config.holdCycles) :
    runFor k s = .next { s with holdCnt := s.holdCnt + k } := by
  induction k with
  | zero => rfl
  | succ k ih =>
    have hne : s.holdCnt + (k + 1) ≠ Config.holdCycles := by omega
    calc runFor (k + 1) s
        = runFor 1 { s with holdCnt := s.holdCnt + k } := runFor_add (ih (by omega)) 1
      _ = .next { s with holdCnt := s.holdCnt + (k + 1) } := runFor_one_of_next <| by
        rw [step_performs (s := { s with holdCnt := s.holdCnt + k }) hst hoe hhost hpend]
        simp [State.perform, hne, Nat.add_assoc]

theorem performNow_eq_afterEvents (s : State) (e : WireEvent) :
    s.performNow e = s.afterEvents [e] := by
  rw [afterEvents_cons, afterEvents_nil]

/-- After its cycles an event has been performed and the next one is at the head (R110). -/
theorem runFor_eventCycles {s : State} {e : WireEvent} {rest : List WireEvent}
    (hst : s.started = true) (hoe : s.oe = true) (hhost : s.hostSteady) (hcnt : s.holdCnt = 0)
    (hpend : s.pend = e :: rest) :
    runFor (eventCycles e) s = .next ({ s with pend := rest }.performNow e) := by
  cases e with
  | set l b =>
    refine runFor_one_of_next ((step_performs hst hoe hhost hpend).trans ?_)
    cases l <;> rfl
  | hold =>
    have hwithin := runFor_within_hold hst hoe hhost hpend Config.holdCyclesPred
      (by rw [hcnt, Nat.zero_add]; exact Nat.lt_succ_self _)
    refine (runFor_add hwithin 1).trans (runFor_one_of_next ?_)
    rw [step_performs (s := { s with holdCnt := s.holdCnt + Config.holdCyclesPred })
      hst hoe hhost hpend]
    simp [State.perform, State.performNow, State.retire, hcnt, Config.holdCycles]

/-- After the cycles of its pending events the clocked block has performed them all, in order, the host being steady (R59, R110, R213). -/
theorem runFor_cyclesOf_pend {es : List WireEvent} {s : State} (hst : s.started = true)
    (hoe : s.oe = true) (hhost : s.hostSteady) (hcnt : s.holdCnt = 0) (hpend : s.pend = es) :
    runFor (cyclesOf es) s = .next (State.afterEvents { s with pend := [] } es) := by
  induction es generalizing s with
  | nil =>
    rw [afterEvents_nil]
    cases s
    cases hpend
    rfl
  | cons e es ih =>
    have hhead := runFor_eventCycles hst hoe hhost hcnt hpend
    have hcycles : cyclesOf (e :: es) = eventCycles e + cyclesOf es := by simp [cyclesOf]
    rw [hcycles, runFor_add hhead, afterEvents_cons, performNow_eq_afterEvents,
      performNow_eq_afterEvents]
    exact ih (s := State.afterEvents { s with pend := es } [e]) hst hoe hhost hcnt rfl

/-! ### The lines after a frame -/

theorem levelAfter_cs_frame (b : Level) (bs : List Level) :
    levelAfter .cs b (frame bs) = true := by
  simp [frame, levelAfter, levelAfter_append]

/-- A frame with a bit leaves STB high, whatever it was before (R111, R117). -/
theorem levelAfter_stb_frame_concat (b x : Level) (bs : List Level) :
    levelAfter .stb b (frame (bs ++ [x])) = true := by
  simp [frame, levelAfter, levelAfter_append, bitEv]

/-- A frame leaves DAT at its last bit (R111, R117). -/
theorem levelAfter_dat_frame_concat (b x : Level) (bs : List Level) :
    levelAfter .dat b (frame (bs ++ [x])) = x := by
  simp [frame, levelAfter, levelAfter_append, bitEv]

/-! ### A word offered to the idle block -/

/-- An idle block offered the host's last word performs it and then, in their cycles, the events `es` it appended; if that opens no run, it is at the end of a run (R38, R59, R213, R214). -/
theorem runFor_of_request {s u : State} {w : Word} {es : List WireEvent} {n : Nat}
    (hidle : s.Idle) (hoe : s.oe = true) (hcnt : s.holdCnt = 0) (hhost : s.host = [.offer w])
    (hexec : exec (decodeRequest w) { s with host := [] } = .next u) (hrun : u.runLeft = 0)
    (hpend : u.pend = es) (hcycles : cyclesOf es = n) :
    ∃ t, runFor (1 + n) s = .next t ∧ t.Ended ∧ t.sh = u.sh ∧ t.trace = s.trace ++ es ∧
      t.past = s.past ∧ t.cs = levelAfter .cs s.cs es ∧ t.stb = levelAfter .stb s.stb es ∧
      t.dat = levelAfter .dat s.dat es := by
  obtain ⟨hempty, hclosed, hst⟩ := hidle
  have hready : s.reqReady = true := by simp [State.reqReady, State.rstN, hhost, hst, hempty]
  have hstep : step s = .next u := by
    rw [step_of_offer hhost hready, classify_outsideRun (by rw [hclosed]; rfl)]
    exact hexec
  obtain ⟨hframe, -⟩ := instructionsTouchOnlyTheirOwnState _ _ _ hexec
  have huhost : u.host = [] := by rw [hframe]
  have hust : u.started = true := by rw [hframe]; exact hst
  have hwork := runFor_cyclesOf_pend hust (by rw [hframe]; exact hoe) (.inl huhost)
    (by rw [hframe]; exact hcnt) hpend
  refine ⟨State.afterEvents { u with pend := [] } es, ?_, ⟨?_, rfl, hrun, hust⟩, rfl, ?_⟩
  · rw [runFor_add (runFor_one_of_next hstep), ← hcycles, hwork]
  · simp [State.hostDone, State.afterEvents, huhost]
  · rw [hframe]
    exact ⟨rfl, rfl, rfl, rfl, rfl⟩

theorem cmdOperand_eq_ofNat (a : BitVec 12) : cmdOperand a = BitVec.ofNat 8 a.toNat := by
  apply BitVec.eq_of_toNat_eq
  simp [cmdOperand]

theorem cyclesOf_cmdFrame (c : BitVec 8) :
    cyclesOf (frame (cmdBits c)) = 38 + 24 * Config.holdCycles := by
  rw [cyclesOf_frame, cmdBits_length]
  omega

theorem cyclesOf_wrFrame (a : BitVec 6) (d : Nibble) :
    cyclesOf (frame (wrBits a d)) = 41 + 26 * Config.holdCycles := by
  rw [cyclesOf_frame, wrBits_length]
  omega

/-- Settles O55: the idle block performs the word's command frame, whose last bit is 0 (R87). -/
theorem commandRequestReachesTheWire : Obligations.CommandRequestReachesTheWire := by
  intro s w hidle hoe hcnt hopen hhost hop
  have ⟨hempty, hrun, hst⟩ := hidle
  rw [← cmdOperand_eq_ofNat]
  generalize hc : cmdOperand (aField w) = c
  have hexec : exec (decodeRequest w) { s with host := [] } =
      .next (State.emit { s with host := [] } (frame (cmdBits c))) := by
    rw [decodeRequest_cmd hop, ← hc]
    rfl
  obtain ⟨t, hrunFor, hended, hsh, htrace, hpast, hcs, hstb, hdat⟩ :=
    runFor_of_request hidle hoe hcnt hhost hexec hrun (by simp [hempty]) (cyclesOf_cmdFrame c)
  have ⟨_, htempty, htclosed, _⟩ := hended
  refine ⟨t, hrunFor, hended, ?_, ?_, hcs.trans (levelAfter_cs_frame _ _),
    hstb.trans (levelAfter_stb_frame_concat _ _ _), hdat.trans (levelAfter_dat_frame_concat _ _ _),
    by simp [State.busy, htempty, htclosed], hsh⟩
  · rw [htrace, (framesOf_append_frame hopen _).1]
  · rw [State.performed, hpast, htrace, ← List.append_assoc]
    rfl

/-! ### A segment update -/

theorem updateSegment_readCell_self (s : State) {i : Nat} (h : cellOf i < Config.numCells)
    (on : Bool) : (s.updateSegment i on).readCell (cellOf i) =
      updateBit (s.readCell (cellOf i)) (bitOf i) on :=
  readCell_writeCell_self s h _

/-- The bit asked for is as asked (R53, R140). -/
theorem updateSegment_getLsbD_self (s : State) {i : Nat} (h : cellOf i < Config.numCells)
    (on : Bool) : ((s.updateSegment i on).readCell (cellOf i)).getLsbD (bitOf i) = on := by
  have hbit : bitOf i < 4 := Nat.mod_lt _ (by decide)
  rw [updateSegment_readCell_self s h, updateBit_getLsbD _ _ hbit hbit, if_pos rfl]

/-- A write frame to a cell that exists sets it and no other (R65). -/
theorem receive_wrBits (C : Controller) {a : BitVec 6} (h : a.toNat < Config.numCells) (d : Nibble) :
    C.receive (wrBits a d) = C.setIfInBounds a.toNat (some d) := by
  rw [Controller.receive, decodeWire_wrBits]
  exact if_pos ⟨.inl rfl, h⟩

/-- A cell is coherent when the last frame wrote the shadow's value to it (R63, R143). -/
theorem coherent_of_wrFrame {t : State} {es : List WireEvent} {c : Nat} (hc : c < Config.numCells)
    (hopen : openBits es = none)
    (hevents : t.events = es ++ frame (wrBits (BitVec.ofNat 6 c) (t.readCell c))) :
    t.Coherent c := by
  have haddr : (BitVec.ofNat 6 c).toNat = c := Nat.mod_eq_of_lt (hc.trans (by decide))
  have hc64 : c < 64 := hc.trans (by decide)
  rw [State.Coherent, State.controller, hevents, controllerAfter_frame hopen,
    receive_wrBits _ (by rwa [haddr]), haddr]
  simp [hc64]

/-- Settles O56: the idle block performs the write frame of the cell's new value, which the controller receives. -/
theorem segmentRequestReachesTheController : Obligations.SegmentRequestReachesTheController := by
  intro s w hidle hoe hcnt hopen hhost hop hvalid
  have ⟨hempty, hrun, hst⟩ := hidle
  generalize hon : (dField w).getLsbD 0 = on
  generalize hi : (aField w).toNat = i at hvalid
  have hcell : cellOf i < Config.numCells := (cellOf_lt_iff i).mpr hvalid
  have hexec : exec (decodeRequest w) { s with host := [] } =
      .next (State.updateSegment { s with host := [] } i on) := by
    rw [decodeRequest_setseg hop, exec_setseg, hi, hon, if_pos hvalid]
  generalize hu : State.updateSegment { s with host := [] } i on = u at hexec
  have hpend : u.pend = frame (wrBits (BitVec.ofNat 6 (cellOf i)) (u.readCell (cellOf i))) := by
    rw [← hu, updateSegment_pend _ hcell, updateSegment_readCell_self _ hcell, hempty]
    rfl
  have hclosed : u.runLeft = 0 := by rw [← hu]; exact hrun
  obtain ⟨t, hrunFor, hended, hsh, htrace, _⟩ :=
    runFor_of_request hidle hoe hcnt hhost hexec hclosed hpend (cyclesOf_wrFrame _ _)
  have hread : t.readCell (cellOf i) = u.readCell (cellOf i) := by
    rw [State.readCell, hsh, State.readCell]
  have ⟨_, htempty, _⟩ := hended
  refine ⟨t, hrunFor, hended, ?_, coherent_of_wrFrame hcell hopen ?_⟩
  · have hbit := updateSegment_getLsbD_self { s with host := [] } hcell on
    rwa [hu, ← hread] at hbit
  · rw [State.events, htempty, List.append_nil, htrace, ← hread]
    rfl

end Sys2Proof.Machine

/-! A segment update and the shadow (R51-R53, R140), and the frame it sends, bit by bit (R88). -/

namespace Sys2Proof.Machine

/-! ### The index decode -/

theorem four_mul_cellOf_add_bitOf (i : Nat) : 4 * cellOf i + bitOf i = i := Nat.div_add_mod i 4

theorem bitOf_lt (i : Nat) : bitOf i < 4 := Nat.mod_lt i (by decide)

/-- Settles O31: an index is four times its cell plus its bit, so both together give it back. -/
theorem indexDecodeIsOneToOne : Obligations.IndexDecodeIsOneToOne := by
  intro i
  refine ⟨bitOf_lt _, (four_mul_cellOf_add_bitOf _).symm, by simp [indexValid_eq],
    fun j hcell hbit => ?_⟩
  apply BitVec.eq_of_toNat_eq
  rw [← four_mul_cellOf_add_bitOf i.toNat, hcell, hbit, four_mul_cellOf_add_bitOf]

/-! ### SETSEG -/

theorem exec_setseg_of_valid {i : BitVec 12} (h : i.toNat < 160) (d : BitVec 16) (s : State) :
    exec (.setseg i d) s = .next (s.updateSegment i.toNat (d.getLsbD 0)) := by
  rw [exec_setseg, if_pos h]

theorem exec_setseg_of_invalid {i : BitVec 12} (h : 160 ≤ i.toNat) (d : BitVec 16) (s : State) :
    exec (.setseg i d) s = .next s := by
  rw [exec_setseg, if_neg (by omega)]

/-- Settles O16, as SETSEG leaves the state alone when the index has no cell. -/
theorem setsegIgnoresIndicesPastTheLast : Obligations.SetsegIgnoresIndicesPastTheLast :=
  fun _ d s h => exec_setseg_of_invalid h d s

/-- A segment update leaves every cell but its own alone (R53). -/
theorem updateSegment_readCell_ne (s : State) {i c : Nat} (h : c ≠ cellOf i) (on : Bool) :
    (s.updateSegment i on).readCell c = s.readCell c :=
  readCell_writeCell_ne s h.symm _

/-- One bit of one cell becomes what was asked for, every other bit of every cell stays (R53, R140). -/
theorem updateSegment_getLsbD (s : State) {i : Nat} (h : cellOf i < Config.numCells) (on : Bool)
    (c : Nat) {k : Nat} (hk : k < 4) : ((s.updateSegment i on).readCell c).getLsbD k =
      if c = cellOf i ∧ k = bitOf i then on else (s.readCell c).getLsbD k := by
  by_cases hc : c = cellOf i
  · subst hc
    rw [updateSegment_readCell_self s h, updateBit_getLsbD _ _ (bitOf_lt i) hk]
    simp
  · simp [updateSegment_readCell_ne s hc, hc]

/-- The address field of a cell that exists is its number (R88). -/
theorem toNat_cellAddr {c : Nat} (h : c < Config.numCells) : (BitVec.ofNat 6 c).toNat = c :=
  Nat.mod_eq_of_lt (h.trans (by decide))

/-- The write frame of an updated segment: the whole cell as the update leaves it (R140). -/
def State.segmentFrame (s : State) (i : Nat) (on : Bool) : List Level :=
  wrBits (BitVec.ofNat 6 (cellOf i)) ((s.updateSegment i on).readCell (cellOf i))

theorem updateSegment_pend_segmentFrame (s : State) (i : Nat) (on : Bool) :
    (s.updateSegment i on).pend = s.pend ++ frame (s.segmentFrame i on) := rfl

theorem segmentFrame_eq (s : State) {i : Nat} (h : cellOf i < Config.numCells) (on : Bool) :
    s.segmentFrame i on = [true, false, true] ++ bits (cellOf i) 6 ++
      bits ((s.updateSegment i on).readCell (cellOf i)).toNat 4 := by
  rw [State.segmentFrame, wrBits, toNat_cellAddr h]
  rfl

/-- Settles O15: the update of the one bit, and the write frame of the cell it leaves. -/
theorem setsegChangesOneBitAndRewritesItsCell :
    Obligations.SetsegChangesOneBitAndRewritesItsCell := by
  intro i d s hvalid
  have hcell : cellOf i.toNat < Config.numCells := (cellOf_lt_iff _).mpr hvalid
  refine ⟨_, exec_setseg_of_valid hvalid d s, fun c k _ hk => ?_, ?_, rfl⟩
  · exact updateSegment_getLsbD s hcell _ c hk
  · rw [updateSegment_pend_segmentFrame, segmentFrame_eq s hcell]
    rfl

/-! ### The frames of a sequence of updates -/

/-- Bit `k` of the data stands `k` places before the last bit of a write frame (R88). -/
theorem wrBits_getElem?_data (a : BitVec 6) (d : Nibble) {k : Nat} (hk : k < 4) :
    (wrBits a d)[12 - k]? = some (d.getLsbD k) := by
  match k, hk with
  | 0, _ | 1, _ | 2, _ | 3, _ => rfl

theorem wrBits_addr (a : BitVec 6) (d : Nibble) :
    ((wrBits a d).drop 3).take 6 = bits a.toNat 6 :=
  List.take_left' (bits_length _ _)

/-- A bit list is a write frame to the cell of index `p.1`, with its bit as bit 0 of `p.2` asks (R53, R88, R140). -/
def UpdatesSegment (bs : List Level) (p : BitVec 12 × BitVec 16) : Prop :=
  bs.length = 13 ∧ bs.take 3 = [true, false, true] ∧
    (bs.drop 3).take 6 = bits (p.1.toNat / 4) 6 ∧
    bs[12 - p.1.toNat % 4]? = some (p.2.getLsbD 0)

/-- The SETSEGs whose index has a cell (R52). -/
def validUpdates (l : List (BitVec 12 × BitVec 16)) : List (BitVec 12 × BitVec 16) :=
  l.filter fun p => decide (p.1.toNat < 160)

theorem updateSegment_events (s : State) (i : Nat) (on : Bool) :
    (s.updateSegment i on).events = s.events ++ frame (s.segmentFrame i on) :=
  (List.append_assoc _ _ _).symm

theorem segmentFrame_updatesSegment (s : State) {p : BitVec 12 × BitVec 16}
    (h : p.1.toNat < 160) : UpdatesSegment (s.segmentFrame p.1.toNat (p.2.getLsbD 0)) p := by
  have hcell : cellOf p.1.toNat < Config.numCells := (cellOf_lt_iff _).mpr h
  refine ⟨wrBits_length _ _, rfl, ?_, ?_⟩
  · rw [State.segmentFrame, wrBits_addr, toNat_cellAddr hcell, cellOf]
  · exact (wrBits_getElem?_data _ _ (bitOf_lt _)).trans
      (congrArg some (updateSegment_getLsbD_self s hcell _))

/-- SETSEGs send the frames of those whose index has a cell, one each and in their order (R53, R146). -/
theorem execAll_setsegs (l : List (BitVec 12 × BitVec 16)) (s : State)
    (hopen : openBits s.events = none) :
    ∃ t fs, execAll (l.map fun p => .setseg p.1 p.2) s = some t ∧
      framesOf t.events = framesOf s.events ++ fs ∧ openBits t.events = none ∧
      List.Forall₂ UpdatesSegment fs (validUpdates l) := by
  induction l generalizing s with
  | nil => exact ⟨s, [], rfl, by simp, hopen, .nil⟩
  | cons p l ih =>
    by_cases hvalid : p.1.toNat < 160
    · generalize hu : s.updateSegment p.1.toNat (p.2.getLsbD 0) = u
      generalize hbs : s.segmentFrame p.1.toNat (p.2.getLsbD 0) = bs
      have hevents : u.events = s.events ++ frame bs := by
        rw [← hu, ← hbs, updateSegment_events]
      obtain ⟨hframes, hclosed⟩ := framesOf_append_frame hopen bs
      rw [← hevents] at hframes hclosed
      obtain ⟨t, fs, hexec, hread, hend, hfs⟩ := ih u hclosed
      refine ⟨t, bs :: fs, ?_, ?_, hend, ?_⟩
      · rw [List.map_cons, execAll, exec_setseg_of_valid hvalid, hu]
        exact hexec
      · rw [hread, hframes, List.append_assoc]
        rfl
      · rw [validUpdates, List.filter_cons_of_pos (by simpa using hvalid)]
        exact .cons (hbs ▸ segmentFrame_updatesSegment s hvalid) hfs
    · obtain ⟨t, fs, hexec, hrest⟩ := ih s hopen
      rw [validUpdates, List.filter_cons_of_neg (by simpa using hvalid)]
      refine ⟨t, fs, ?_, hrest⟩
      rw [List.map_cons, execAll, exec_setseg_of_invalid (by omega)]
      exact hexec

/-- Settles O50: the frames sent and the valid SETSEGs correspond one to one. -/
theorem eachValidSegmentUpdateSendsOneFrame :
    Obligations.EachValidSegmentUpdateSendsOneFrame := by
  intro l s hopen
  obtain ⟨t, fs, hexec, hread, hend, hfs⟩ := execAll_setsegs l s hopen
  exact ⟨t, fs, hexec, hread, hend, hfs.length_eq,
    hfs.length_eq.trans_le (List.length_filter_le _ _), hfs⟩

end Sys2Proof.Machine

/-! What the controller of the external model (R65) holds once the events of an instruction are sent, beside the shadow (R63, R143, R208). -/

namespace Sys2Proof.Machine

/-! ### The controller after frames -/

theorem emit_events (s : State) (es : List WireEvent) : (s.emit es).events = s.events ++ es :=
  (List.append_assoc _ _ _).symm

/-- Where no frame is open, whole frames are received one after the other (R65). -/
theorem controllerAfter_frames {es : List WireEvent} (h : openBits es = none)
    (fs : List (List Level)) : controllerAfter (es ++ fs.flatMap frame) =
      fs.foldl Controller.receive (controllerAfter es) := by
  induction fs generalizing es with
  | nil => simp
  | cons f fs ih =>
    obtain ⟨-, hclosed⟩ := framesOf_append_frame h f
    rw [List.flatMap_cons, ← List.append_assoc, ih hclosed, controllerAfter_frame h,
      List.foldl_cons]

theorem emit_frame_controller {s : State} (h : openBits s.events = none) (bs : List Level) :
    (s.emit (frame bs)).controller = s.controller.receive bs := by
  rw [State.controller, emit_events, controllerAfter_frame h, State.controller]

/-! ### SETSEG and WRCELL -/

/-- A write frame leaves every cell of the controller but its own alone (R65). -/
theorem receive_wrBits_ne (C : Controller) {a : BitVec 6} (h : a.toNat < Config.numCells)
    (d : Nibble) {c : Nat} (hc : c ≠ a.toNat) : (C.receive (wrBits a d))[c]? = C[c]? := by
  rw [receive_wrBits C h, Vector.getElem?_setIfInBounds_ne hc.symm]

theorem receive_wrBits_self (C : Controller) {a : BitVec 6} (h : a.toNat < Config.numCells)
    (d : Nibble) : (C.receive (wrBits a d))[a.toNat]? = some (some d) := by
  rw [receive_wrBits C h, Vector.getElem?_setIfInBounds_self_of_lt a.isLt]

/-- Settles O52: the last frame carries the cell's value in the shadow, and goes to that cell only. -/
theorem setsegRestoresCoherenceOfItsCell : Obligations.SetsegRestoresCoherenceOfItsCell := by
  intro i d s hopen hvalid
  have hcell : cellOf i.toNat < Config.numCells := (cellOf_lt_iff _).mpr hvalid
  have haddr := toNat_cellAddr hcell
  have hevents := updateSegment_events s i.toNat (d.getLsbD 0)
  refine ⟨_, exec_setseg_of_valid hvalid d s, coherent_of_wrFrame hcell hopen hevents,
    fun c _ hc => ⟨?_, updateSegment_readCell_ne s hc _⟩⟩
  rw [State.controller, hevents, controllerAfter_frame hopen, State.segmentFrame,
    receive_wrBits_ne _ (by rwa [haddr]) _ (by rwa [haddr]), State.controller]

theorem addrOperand_toNat (a : BitVec 12) : (addrOperand a).toNat = a.toNat % 64 :=
  maskTo_toNat 6 a

theorem dataOperand_eq_ofNat (d : BitVec 16) : dataOperand d = BitVec.ofNat 4 d.toNat :=
  BitVec.eq_of_toNat_eq (by simp [dataOperand])

/-- Settles O53: WRCELL's write frame sets the addressed cell of the controller to the data, and the shadow is not written. -/
theorem rawWriteBypassesTheShadow : Obligations.RawWriteBypassesTheShadow := by
  intro a d s hopen hcell
  rw [← addrOperand_toNat] at hcell ⊢
  rw [← dataOperand_eq_ofNat]
  have hcontroller := emit_frame_controller hopen (wrBits (addrOperand a) (dataOperand d))
  refine ⟨_, rfl, rfl, ?_, fun c _ hc => ?_⟩
  · rw [State.Coherent, hcontroller, receive_wrBits_self _ hcell, emit_readCell]
    simp [eq_comm]
  · rw [hcontroller, receive_wrBits_ne _ hcell _ hc]

/-! ### CLRALL -/

/-- The bit lists of CLRALL's first `n` frames (R141). -/
def zeroFrames (n : Nat) : List (List Level) :=
  (List.range n).map fun c => wrBits (BitVec.ofNat 6 c) 0

theorem clearFrames_eq : clearFrames = (zeroFrames Config.numCells).flatMap frame :=
  (List.flatMap_map _ frame _).symm

/-- CLRALL's first `n` frames make the first `n` cells of the controller 0 (R65, R141). -/
theorem receive_zeroFrames (C : Controller) {n c : Nat} (hn : n ≤ Config.numCells) (hc : c < n) :
    ((zeroFrames n).foldl Controller.receive C)[c]? = some (some 0) := by
  induction n with
  | zero => omega
  | succ n ih =>
    have haddr : (BitVec.ofNat 6 n).toNat = n := toNat_cellAddr hn
    have hlast : zeroFrames (n + 1) = zeroFrames n ++ [wrBits (BitVec.ofNat 6 n) 0] := by
      simp [zeroFrames, List.range_succ]
    rw [hlast, List.foldl_concat]
    rcases Nat.lt_succ_iff_lt_or_eq.mp hc with hlt | rfl
    · rw [receive_wrBits_ne]
      · exact ih (by omega) hlt
      all_goals omega
    · simpa [haddr] using receive_wrBits_self ((zeroFrames c).foldl Controller.receive C)
        (a := BitVec.ofNat 6 c) (by rwa [haddr]) 0

/-- Settles O51: CLRALL's frames make every cell of the controller 0, as it has made the shadow's. -/
theorem clrallRestoresCoherence : Obligations.ClrallRestoresCoherence := by
  intro a d s hopen
  refine ⟨_, rfl, fun c hc => ?_⟩
  have hcleared : openBits s.clearCells.events = none := hopen
  have hcontroller : (s.clearCells.emit clearFrames).controller[c]? = some (some 0) := by
    rw [State.controller, emit_events, clearFrames_eq, controllerAfter_frames hcleared]
    exact receive_zeroFrames _ le_rfl hc
  refine ⟨?_, hcontroller⟩
  rw [State.Coherent, hcontroller, emit_readCell, clearCells_readCell]

/-! ### Runs -/

/-- A run frame reads back as its nibbles, from address 0 (R89, R92). -/
theorem decodeWire_runBits (ds : List Nibble) : decodeWire (runBits ds) = .ok (.writeRun 0 ds) := by
  have hlen : (runBits ds).length = 9 + 4 * ds.length := (Laws.TableRow.wireRunFrame ds).1
  have haddr : ((runBits ds).drop 3).take 6 = bits 0 6 := rfl
  have hdata : (runBits ds).drop 9 = ds.flatMap nibBits := List.drop_left' runHdrBits_length
  rw [decodeWire_of_prefixWr rfl (by omega) (by omega), haddr, hdata, nibblesOf_flatMap,
    ofBits_bits]
  rfl

/-- A run that the cells have room for is written from cell 0 on (R65). -/
theorem receive_runBits (C : Controller) {ds : List Nibble} (hne : ds ≠ [])
    (hfits : ds.length ≤ Config.numCells) : C.receive (runBits ds) = C.writeFrom 0 ds := by
  have hpos : 0 < ds.length := List.length_pos_of_ne_nil hne
  have hshape : ds.length = 1 ∨ (0 : BitVec 6) = 0 ∧ 1 < ds.length := by
    rcases Nat.eq_or_lt_of_le hpos with h | h
    · exact .inl h.symm
    · exact .inr ⟨rfl, h⟩
  rw [Controller.receive, decodeWire_runBits]
  exact if_pos ⟨hshape, by simpa using hfits⟩

/-- Settles O54: the controller receives the run frame as a stretch of cells written from cell 0 on. -/
theorem runWritesTheControllerFromCellZero : Obligations.RunWritesTheControllerFromCellZero := by
  intro ds s hopen hne hfits
  have hcontroller : (s.emit (frame (runBits ds))).controller = s.controller.writeFrom 0 ds :=
    (emit_frame_controller hopen _).trans (receive_runBits _ hne hfits)
  obtain ⟨hwritten, hkept⟩ := writeFrom_getElem? ds s.controller 0 (by omega)
  refine ⟨_, rfl, rfl, fun k d hk => ?_, fun c hc _ => ?_⟩
  · rw [hcontroller]
    simpa using hwritten k d hk
  · rw [hcontroller]
    exact hkept c (.inr (by omega))

end Sys2Proof.Machine

/-! The order of events over a step (R59, R119), and the clocked block against the untimed one under a host that idles and offers (R110, R205, R213). -/

namespace Sys2Proof.Machine

/-- Settles O41: an accepted word, taken with nothing pending, appends its events; a cycle without acceptance performs one at most; a reset performs none. -/
theorem eventsKeepTheirOrder : Obligations.EventsKeepTheirOrder := by
  intro s t h
  rcases step_cases s with ⟨hr, e⟩ | ⟨w, hs, _, hr, _, hpend, e⟩ | ⟨hr, _, e⟩
  · cases e.symm.trans h
    have hkept : s.takeReset.observation.events = s.observation.events := takeReset_performed s
    refine ⟨by simp [hr], fun _ => ⟨rfl, hkept⟩, ?_⟩
    rw [hkept]
    exact ⟨List.prefix_refl _, Nat.le_succ _⟩
  · obtain ⟨es, ht, -⟩ := exec_classify_appends (s := { s with host := hs }) (e.symm.trans h)
    have hperformed : t.observation.events = s.observation.events := by rw [ht]; rfl
    rw [hperformed]
    refine ⟨fun _ => ⟨es, ?_, fun _ => hpend, ?_⟩, by simp [hr], List.prefix_refl _,
      Nat.le_succ _⟩
    · rw [ht]
      simp [State.events]
    · rw [ht]
      exact ⟨List.prefix_refl _, Nat.le_succ _, rfl⟩
  · cases e.symm.trans h
    obtain ⟨hevents, _, _, _, hprefix, hlen, hpast⟩ := runCycle_keeps s
    exact ⟨fun _ => ⟨[], by simpa using hevents, by simp, hprefix, hlen, hpast⟩, by simp [hr],
      runCycle_performed s⟩

/-! ### The clocked block under any host -/

theorem rstN_iff (s : State) : s.rstN = true ↔ s.host.head? ≠ some .reset := by
  rw [State.rstN]
  match s.host with
  | [] | .offer _ :: _ | .idle :: _ | .reset :: _ => simp

/-- While an event is pending no word is accepted (R38). -/
theorem step_of_pending {s : State} (hpend : s.pend ≠ []) (hr : s.rstN = true) :
    step s = .next s.runCycle := by
  rcases step_cases s with ⟨hr', _⟩ | ⟨_, _, _, _, _, hempty, _⟩ | ⟨_, _, e⟩
  · simp [hr] at hr'
  · exact absurd hempty hpend
  · exact e

/-- A cycle without acceptance does the same work under every host (R110, R201). -/
theorem runCycle_withHost (s : State) (h : List HostAct) :
    ({ s with host := h } : State).runCycle = ({ s.runCycle with host := h } : State).hostWait := by
  obtain ⟨g, hg⟩ := hostWait_eq s.blockStep.startupStep
  simp only [State.runCycle, blockStep_withHost, startupStep_withHost, hg]

/-- An idle entry of the host at most is over (R205). -/
theorem hostWait_withHost (s : State) (h : List HostAct) :
    ∃ h', ({ s with host := h } : State).hostWait = { s with host := h' } ∧
      (h = h' ∨ h = .idle :: h') := by
  match h with
  | [] => exact ⟨[], rfl, .inl rfl⟩
  | .idle :: h => exact ⟨h, rfl, .inr rfl⟩
  | .offer w :: h => exact ⟨.offer w :: h, rfl, .inl rfl⟩
  | .reset :: h => exact ⟨.reset :: h, rfl, .inl rfl⟩

/-- While an event is pending a cycle is the same under every host that does not reset (R110, R205). -/
theorem step_withHost_of_pending {s t : State} (hpend : s.pend ≠ []) (hr : s.rstN = true)
    (hstep : step s = .next t) {h : List HostAct} (hh : h.head? ≠ some .reset) :
    ∃ h', step { s with host := h } = .next { t with host := h' } ∧
      (h = h' ∨ h = .idle :: h') := by
  cases (step_of_pending hpend hr).symm.trans hstep
  obtain ⟨h', hwait, hover⟩ := hostWait_withHost s.runCycle h
  refine ⟨h', ?_, hover⟩
  rw [step_of_pending (s := { s with host := h }) hpend ((rstN_iff _).mpr hh),
    runCycle_withHost, hwait]

theorem step_of_runFor_one {s t : State} (h : runFor 1 s = .next t) : step s = .next t := by
  cases hstep : step s with
  | next u => rwa [runFor_one_of_next hstep] at h
  | fault r => rw [runFor_succ 0, hstep] at h; cases h
  | refused r => rw [runFor_succ 0, hstep] at h; cases h

/-- After its idle entries a host that does not reset meanwhile is not at a reset. -/
theorem head?_ne_reset_of_take {k n : Nat} {h : List HostAct} (hk : k ≤ n)
    (hh : ∀ a ∈ (List.replicate k HostAct.idle ++ h).take (n + 1), a ≠ .reset) :
    h.head? ≠ some .reset := by
  intro hreset
  have hat : ((List.replicate k HostAct.idle ++ h).take (n + 1))[k]? = some HostAct.reset := by
    rw [List.getElem?_take_of_lt (by omega), List.getElem?_append_right (by simp), ← hreset,
      List.head?_eq_getElem?, List.length_replicate, Nat.sub_self]
  exact hh .reset (List.mem_of_getElem? hat) rfl

/-- An event is pending at each of the first `n` cycles of `s`, under a host that does nothing. -/
def PendingFor (n : Nat) (s : State) : Prop :=
  ∀ m < n, ∃ v, runFor m s = .next v ∧ v.pend ≠ [] ∧ v.host = []

/-- A run in which an event is pending at each cycle is the same under every host that does not reset meanwhile: only idle entries of the host are over (R110, R205). -/
theorem runFor_withHost_of_pending {n : Nat} {s u : State} (hpend : PendingFor n s)
    (hrun : runFor n s = .next u) {h : List HostAct} (hh : ∀ a ∈ h.take n, a ≠ .reset) :
    ∃ k h', k ≤ n ∧ h = List.replicate k .idle ++ h' ∧
      runFor n { s with host := h } = .next { u with host := h' } := by
  induction n generalizing u with
  | zero =>
    cases hrun
    exact ⟨0, h, le_rfl, rfl, rfl⟩
  | succ n ih =>
    obtain ⟨v, hv, hvpend, hvhost⟩ := hpend n (Nat.lt_succ_self n)
    have hvstep : step v = .next u := step_of_runFor_one ((runFor_add hv 1).symm.trans hrun)
    obtain ⟨k, g, hk, rfl, hg⟩ := ih (fun m hm => hpend m (by omega)) hv
      (fun a ha => hh a (List.take_subset_take_left _ (Nat.le_succ n) ha))
    obtain ⟨g', hstep, hg'⟩ := step_withHost_of_pending hvpend (by simp [State.rstN, hvhost])
      hvstep (head?_ne_reset_of_take hk hh)
    have hlast := (runFor_add hg 1).trans (runFor_one_of_next hstep)
    rcases hg' with rfl | rfl
    · exact ⟨k, g, by omega, rfl, hlast⟩
    · exact ⟨k + 1, g', by omega, by simp [List.replicate_succ'], hlast⟩

/-- Until the last of its cycles an event is pending (R110). -/
theorem pendingFor_eventCycles {s : State} {e : WireEvent} {rest : List WireEvent}
    (hst : s.started = true) (hoe : s.oe = true) (hhost : s.host = []) (hcnt : s.holdCnt = 0)
    (hpend : s.pend = e :: rest) : PendingFor (eventCycles e) s := by
  intro m hm
  cases e with
  | set l b =>
    obtain rfl : m = 0 := Nat.lt_one_iff.mp hm
    exact ⟨s, rfl, by simp [hpend], hhost⟩
  | hold =>
    exact ⟨_, runFor_within_hold hst hoe (.inl hhost) hpend m (by rwa [hcnt, Nat.zero_add]),
      by simp [hpend], hhost⟩

/-- An event is pending for two stretches of cycles, one after the other. -/
theorem PendingFor.add {m n : Nat} {s t : State} (hs : PendingFor m s)
    (hrun : runFor m s = .next t) (ht : PendingFor n t) : PendingFor (m + n) s := by
  intro j hj
  rcases Nat.lt_or_ge j m with hlt | hge
  · exact hs j hlt
  · obtain ⟨i, rfl⟩ := Nat.exists_eq_add_of_le hge
    rw [runFor_add hrun]
    exact ht i (by omega)

/-- Until the last cycle of its pending events one is pending (R110, R213). -/
theorem pendingFor_cyclesOf {es : List WireEvent} {s : State} (hst : s.started = true)
    (hoe : s.oe = true) (hhost : s.host = []) (hcnt : s.holdCnt = 0) (hpend : s.pend = es) :
    PendingFor (cyclesOf es) s := by
  induction es generalizing s with
  | nil => exact fun m hm => absurd hm (Nat.not_lt_zero m)
  | cons e es ih =>
    have hhead := runFor_eventCycles hst hoe (.inl hhost) hcnt hpend
    rw [performNow_eq_afterEvents] at hhead
    exact (pendingFor_eventCycles hst hoe hhost hcnt hpend).add hhead
      (ih (s := State.afterEvents { s with pend := es } [e]) hst hoe hhost hcnt rfl)

/-- Settles O9: under an absent host the clocked block performs its pending events in their cycles, with one pending at each, so a host that does not reset makes no difference to it. -/
theorem clockedBlockRefinesUntimed : Obligations.ClockedBlockRefinesUntimed := by
  intro s hst hoe hcnt hhost
  have hpending := pendingFor_cyclesOf (s := { s with host := [] }) hst hoe rfl hcnt rfl
  have halone := runFor_cyclesOf_pend (s := { s with host := [] }) hst hoe (.inl rfl) hcnt rfl
  obtain ⟨k, h, hk, hidle, hrun⟩ := runFor_withHost_of_pending hpending halone hhost
  refine ⟨k, h, hk, hidle, hrun.trans ?_⟩
  rw [untimedRun_pend_length s hoe, drained_eq_afterEvents]
  rfl

end Sys2Proof.Machine

/-! The request words and wire frames decode to the instructions they encode (R80-R92), a run of data words is one run frame (R89), and assembled lines are the words of their instructions (R93-R97). -/

namespace Sys2Proof

/-! ### Request words -/

/-- A word that is no data word decodes to the instruction it encodes (R81). -/
theorem decodeRequest_of_encode {i : Instr} {w : Word} (h : encode i = .word w)
    (hnib : ∀ v, i ≠ .nib v) : decodeRequest w = i := by
  cases i with
  | nib v => exact absurd rfl (hnib v)
  | wireCommandFrame c | wireWriteFrame a d | wireRunFrame ds => cases h
  | cmd a d | wrcell a d | wrrun a d | setseg a d | clrall a d | reserved0 a d | reserved6 a d
  | reserved7 a d | reserved8 a d | reserved9 a d | reservedA a d | reservedB a d | reservedC a d
  | reservedD a d | reservedE a d | reservedF a d =>
    cases h
    simp [decodeRequest]

/-- A word is packed from its OP, as a number, and its other two fields (R80). -/
theorem packWord_ofNat_op {w : Word} {n : Nat} (h : (opField w).toNat = n) :
    packWord (BitVec.ofNat 4 n) (aField w) (dField w) = w := by
  rw [← h, BitVec.ofNat_toNat, BitVec.setWidth_eq, packWord_fields]

/-- No bit of a request word is lost (R81, R85). -/
theorem encode_decodeRequest (w : Word) : encode (decodeRequest w) = .word w := by
  unfold decodeRequest
  split
  case h_16 =>
    have hop : (opField w).toNat = 0xF := by
      have hlt := (opField w).isLt
      grind
    exact congrArg Encoding.word (packWord_ofNat_op hop)
  all_goals exact congrArg Encoding.word (packWord_ofNat_op ‹_›)

theorem decodeRequest_wellFormed (w : Word) : WellFormed (decodeRequest w) = true :=
  classify_outsideRun (r := 0) rfl w ▸ (classified 0 w).wellFormed

/-- Settles O25: the encoder undoes the decoder, and the decoder the encoder but for data words. -/
theorem everyRequestWordIsOneInstruction : Obligations.EveryRequestWordIsOneInstruction := by
  refine fun w => ⟨decodeRequest_wellFormed w, encode_decodeRequest w, fun i h => ?_⟩
  by_cases hnib : ∃ v, i = .nib v
  · exact .inl hnib
  · exact .inr (decodeRequest_of_encode h (not_exists.mp hnib)).symm

/-- Settles O26: each word and frame is read by the decoder as the spec's tables have it. -/
theorem specWordsDecode : Obligations.SpecWordsDecode := by
  unfold Obligations.SpecWordsDecode
  decide

/-! ### Wire frames -/

/-- Settles O27: the mode bits, the command byte from bit 7 down, and the don't-care bit sent as 0. -/
theorem commandFrameBits : Obligations.CommandFrameBits := fun c => ⟨rfl, cmdBits_length c⟩

/-- Settles O28: the mode bits, the address from bit 5 down, and the data from bit 3 down. -/
theorem writeFrameBits : Obligations.WriteFrameBits := fun a d => ⟨rfl, wrBits_length a d⟩

theorem runBits_length (ds : List Nibble) : (runBits ds).length = 9 + 4 * ds.length :=
  (Laws.TableRow.wireRunFrame ds).1

/-- Nibble `k` of a run stands in the `k`-th group of four bits (R89). -/
theorem flatMap_nibBits_group {ds : List Nibble} {k : Nat} {d : Nibble} (h : ds[k]? = some d) :
    ((ds.flatMap nibBits).drop (4 * k)).take 4 = nibBits d := by
  induction ds generalizing k with
  | nil => simp at h
  | cons e ds ih =>
    rw [List.flatMap_cons]
    cases k with
    | zero =>
      obtain rfl : e = d := by simpa using h
      exact List.take_left' (nibBits_length e)
    | succ k =>
      have hdrop : (nibBits e ++ ds.flatMap nibBits).drop (4 * (k + 1)) =
          (ds.flatMap nibBits).drop (4 * k) := by
        rw [Nat.mul_succ, Nat.add_comm, ← List.drop_drop, List.drop_left' (nibBits_length e)]
      rw [hdrop]
      exact ih (by simpa using h)

theorem runBits_group {ds : List Nibble} {k : Nat} {d : Nibble} (h : ds[k]? = some d) :
    ((runBits ds).drop (9 + 4 * k)).take 4 = nibBits d := by
  rw [← List.drop_drop, runBits, List.drop_left' runHdrBits_length]
  exact flatMap_nibBits_group h

/-- A run of one nibble is, bit for bit, the write frame to address 0 (R89). -/
theorem runBits_singleton (d : Nibble) : runBits [d] = wrBits 0 d := rfl

end Sys2Proof

namespace Sys2Proof.Machine

/-- A move of chip-select. -/
def isChipSelect (e : WireEvent) : Bool := e == .set .cs false || e == .set .cs true

theorem filter_isChipSelect_bitsEv (bs : List Level) : (bitsEv bs).filter isChipSelect = [] := by
  induction bs with
  | nil => rfl
  | cons b bs ih =>
    have hbit : (bitEv b).filter isChipSelect = [] := by cases b <;> rfl
    rw [bitsEv_cons, List.filter_append, hbit, ih, List.append_nil]

/-- Chip-select is asserted once around all bits of a frame (R111). -/
theorem filter_isChipSelect_frame (bs : List Level) :
    (frame bs).filter isChipSelect = [.set .cs false, .set .cs true] := by
  simp [frame, filter_isChipSelect_bitsEv, isChipSelect]

/-- Settles O29: the header, then one group of four bits per nibble, in one chip-select span. -/
theorem runFrameBits : Obligations.RunFrameBits :=
  ⟨fun ds => ⟨runBits_length ds, filter_isChipSelect_frame _, rfl, fun _ _ hk => runBits_group hk⟩,
    runBits_singleton⟩

/-- Settles O30: each of the three frame shapes reads back. -/
theorem emittedFramesDecodeToTheirOperands : Obligations.EmittedFramesDecodeToTheirOperands :=
  ⟨decodeWire_cmdBits, decodeWire_wrBits, decodeWire_runBits⟩

/-- A run of any number of nibbles but one is a run frame's row (R89, R92). -/
theorem row_writeRun_zero_cases (ds : List Nibble) :
    (WireFrame.writeRun 0 ds).row = some (.wireRunFrame ds) ∨
      ∃ d, ds = [d] ∧ (WireFrame.writeRun 0 ds).row = some (.wireWriteFrame 0 d) := by
  match ds with
  | [d] => exact .inr ⟨d, rfl, rfl⟩
  | [] | _ :: _ :: _ => exact .inl rfl

/-- Settles O24: words decode by their OP, or within a run; frames by their mode bits and length. -/
theorem encodedInstructionsDecode : Obligations.EncodedInstructionsDecode := by
  refine fun i _ => ⟨fun w hw => ?_, fun bs hbs => ?_⟩
  · by_cases hnib : ∃ v, i = .nib v
    · obtain ⟨_, rfl⟩ := hnib
      cases hw
      exact .inr ⟨⟨w, rfl⟩, fun _ howed => classify_inRun howed w⟩
    · exact .inl (decodeRequest_of_encode hw (not_exists.mp hnib))
  · cases i with
    | wireCommandFrame c =>
      cases hbs
      exact ⟨_, decodeWire_cmdBits c, .inl rfl⟩
    | wireWriteFrame a d =>
      cases hbs
      exact ⟨_, decodeWire_wrBits a d, .inl rfl⟩
    | wireRunFrame ds =>
      cases hbs
      refine ⟨_, decodeWire_runBits ds, (row_writeRun_zero_cases ds).imp_right ?_⟩
      rintro ⟨d, rfl, hrow⟩
      exact ⟨d, rfl, hrow⟩
    | _ => cases hbs

theorem count_hold_bitsEv (bs : List Level) : (bitsEv bs).count .hold = 2 * bs.length := by
  induction bs with
  | nil => rfl
  | cons b bs ih =>
    have hbit : (bitEv b).count .hold = 2 := by cases b <;> rfl
    rw [bitsEv_cons, List.count_append, hbit, ih, List.length_cons]
    omega

/-- Settles O32: two moves of chip-select around five events per bit, two of them Holds. -/
theorem frameHasFiveEventsPerBit : Obligations.FrameHasFiveEventsPerBit := by
  intro bs
  have hread : observe (frame bs) = { current := none, complete := [bs] } := see_frame bs []
  refine ⟨?_, ?_, cyclesOf_frame bs, congrArg Observer.complete hread,
    congrArg Observer.current hread⟩
  · simp [frame, bitsEv_length]
  · simp [frame, count_hold_bitsEv]

/-! ### Sending a frame -/

/-- Settles O19: a wire row sends its frame's events, as `frame` lists them. -/
theorem wireFramesAreSentWhole : Obligations.WireFramesAreSentWhole :=
  fun _ => ⟨fun _ => rfl, fun _ _ => rfl, fun _ => rfl⟩

theorem execAll_cons_of_next {i : Instr} {is : List Instr} {s t : State}
    (h : exec i s = .next t) : execAll (i :: is) s = execAll is t := by
  rw [execAll, h]

/-- Within a run a data word is performed (R33, R115). -/
theorem exec_nib_inRun {s : State} (hr : 0 < s.runLeft.toNat) (w : Word) :
    exec (.nib w) s = .next { s with
      runLeft := s.runLeft - 1
      pend := s.pend ++ bitsEv (nibBits (nibOperand w)) ++
        (if s.runLeft.toNat = 1 then [.set .cs true] else []) } := by
  rw [exec_nib, if_neg (by omega)]

/-- The data words an open run owes send their nibbles and close its frame (R114, R115). -/
theorem execAll_nibs {w : Word} {ws : List Word} {s : State} (hlen : (w :: ws).length < 2 ^ 16)
    (hr : s.runLeft = BitVec.ofNat 16 (w :: ws).length) :
    execAll ((w :: ws).map .nib) s = some { s with
      runLeft := 0
      pend := s.pend ++ bitsEv (((w :: ws).map (maskTo 4)).flatMap nibBits) ++
        [.set .cs true] } := by
  induction ws generalizing w s with
  | nil =>
    rw [List.map_cons, execAll_cons_of_next (exec_nib_inRun (by simp [hr]) w)]
    simp [execAll, hr, nibOperand]
  | cons v ws ih =>
    have howed : s.runLeft.toNat = ws.length + 2 := by
      rw [hr, BitVec.toNat_ofNat, Nat.mod_eq_of_lt hlen]
      rfl
    rw [List.map_cons, execAll_cons_of_next (exec_nib_inRun (by omega) w),
      ih (Nat.lt_of_succ_lt hlen) (by simp [hr, BitVec.ofNat_add])]
    simp [howed, nibOperand]

/-- Settles O21: WRRUN opens the frame with the header, and its data words send the nibbles and close it; with none, WRRUN closes it at once. -/
theorem runOfDataWordsIsOneRunFrame : Obligations.RunOfDataWordsIsOneRunFrame := by
  intro a ws s hlen hr
  refine ⟨_, ?_, rfl⟩
  rw [execAll_cons_of_next (exec_wrrun a _ s)]
  cases ws with
  | nil => simp [execAll, State.emit, frame, runOpening, runBits]
  | cons w ws =>
    have hcount : (BitVec.ofNat 16 (w :: ws).length).toNat ≠ 0 := by
      rw [BitVec.toNat_ofNat, Nat.mod_eq_of_lt hlen]
      exact Nat.succ_ne_zero _
    rw [execAll_nibs hlen (if_neg hcount)]
    simp only [if_neg hcount, ← hr]
    simp [State.emit, frame, runOpening, runBits]

/-! ### What a word's bits decide -/

/-- Settles O4: a ready block takes the word, which the run context and OP classify. -/
theorem acceptedWordsAreClassifiedByRunContext :
    Obligations.AcceptedWordsAreClassifiedByRunContext := by
  intro s w h hhost hready
  have hstep := step_of_offer hhost hready
  refine ⟨fun hr => by rw [hstep, classify_inRun hr], fun hr => ?_⟩
  rw [classify_outsideRun hr] at hstep
  refine ⟨fun hop => ?_, fun hop => ?_, fun hop => ?_, fun hop => ?_, fun hop => ?_, fun hop => ?_⟩
  · rw [hstep, decodeRequest_cmd hop]
  · rw [hstep, decodeRequest_wrcell hop]
  · rw [hstep, decodeRequest_wrrun hop]
  · rw [hstep, decodeRequest_setseg hop]
  · rw [hstep, decodeRequest_clrall hop]
  · exact hstep.trans (exec_reserved (decodeRequest_isReserved hop) _)

/-- Settles O18: the eleven reserved rows share the meaning of `exec_reserved`. -/
theorem reservedWordsOnlySetIllegal : Obligations.ReservedWordsOnlySetIllegal := by
  intro a d s
  refine ⟨?_, ?_, ?_, ?_, ?_, ?_, ?_, ?_, ?_, ?_, ?_⟩ <;>
    exact exec_reserved ⟨a, d, by simp⟩ s

/-- A masked field is decided by the low bits it keeps (R7). -/
theorem maskTo_congr {n w : Nat} {v v' : BitVec n} (h : v.toNat % 2 ^ w = v'.toNat % 2 ^ w) :
    maskTo w v = maskTo w v' :=
  BitVec.eq_of_toNat_eq (by simpa using h)

/-- SETSEG's `on` is the parity of D (R82). -/
theorem onOperand_congr {d d' : BitVec 16} (h : d.toNat % 2 = d'.toNat % 2) :
    onOperand d = onOperand d' := by
  simp only [onOperand, BitVec.getLsbD, Nat.testBit_zero, h]

/-- Settles O22: an operand keeps only the bits its mask keeps, and the rest of a word is not looked at. -/
theorem ignoredBitsHaveNoEffect : Obligations.IgnoredBitsHaveNoEffect := by
  intro a a' d d' w w' s
  refine ⟨fun ha => ?_, fun ha hd => ?_, rfl, fun hd => ?_, rfl, fun hw => ?_,
    rfl, rfl, rfl, rfl, rfl, rfl, rfl, rfl, rfl, rfl, rfl⟩
  · have hcmd : cmdOperand a = cmdOperand a' := maskTo_congr ha
    simp only [exec, execCmd, hcmd]
  · have haddr : addrOperand a = addrOperand a' := maskTo_congr ha
    have hdata : dataOperand d = dataOperand d' := maskTo_congr hd
    simp only [exec, execWrcell, haddr, hdata]
  · simp only [exec, execSetseg, onOperand_congr hd]
  · have hnib : nibOperand w = nibOperand w' := maskTo_congr hw
    simp only [exec_nib, hnib]

end Sys2Proof.Machine

/-! The assembler (R93): a line is the word of its instruction, and lines are read back from their words as a stream (R84, R94, R96, R97). -/

namespace Sys2Proof.Machine

/-! ### The word of a line -/

theorem wordIf_of_fits {ok : Bool} (h : ok = true) (v : Nat) :
    wordIf ok v = .ok (BitVec.ofNat 32 v) := if_pos h

theorem wordIf_of_unfit {ok : Bool} (h : ok = false) (v : Nat) :
    wordIf ok v = .error .operandDoesNotFit := by rw [wordIf, h]; rfl

/-- Numbers that fit the fields of a word are packed by adding them up at the fields' weights (R80). -/
theorem ofNat_fields {op a d : Nat} (ha : a ≤ 0xFFF) (hd : d ≤ 0xFFFF) :
    BitVec.ofNat 32 (op * 2 ^ 28 + a * 2 ^ 16 + d) =
      packWord (BitVec.ofNat 4 op) (BitVec.ofNat 12 a) (BitVec.ofNat 16 d) := by
  apply BitVec.eq_of_toNat_eq
  simp only [packWord_toNat, BitVec.toNat_ofNat]
  omega

theorem toWord_cmd {c : Nat} (hc : c ≤ 0xFFF) :
    AsmLine.toWord (.cmd c) = .ok (packWord 0x1 (BitVec.ofNat 12 c) 0) :=
  (wordIf_of_fits (by simpa) _).trans
    (congrArg Except.ok (ofNat_fields (op := 1) (d := 0) hc (by decide)))

theorem toWord_wrcell {a d : Nat} (ha : a ≤ 0xFFF) (hd : d ≤ 0xFFFF) :
    AsmLine.toWord (.wrcell a d) = .ok (packWord 0x2 (BitVec.ofNat 12 a) (BitVec.ofNat 16 d)) :=
  (wordIf_of_fits (by simp [ha, hd]) _).trans
    (congrArg Except.ok (ofNat_fields (op := 2) ha hd))

theorem toWord_wrrun {n : Nat} (hn : n ≤ 0xFFFF) :
    AsmLine.toWord (.wrrun n) = .ok (packWord 0x3 0 (BitVec.ofNat 16 n)) :=
  (wordIf_of_fits (by simpa) _).trans
    (congrArg Except.ok (ofNat_fields (op := 3) (a := 0) (by decide) hn))

theorem toWord_nib {d : Nat} (hd : d ≤ 0xFFFFFFFF) :
    AsmLine.toWord (.nib d) = .ok (BitVec.ofNat 32 d) := wordIf_of_fits (by simpa) _

theorem toWord_setseg {i on : Nat} (hi : i ≤ 0xFFF) (hon : on ≤ 1) :
    AsmLine.toWord (.setseg i on) =
      .ok (packWord 0x4 (BitVec.ofNat 12 i) (BitVec.ofNat 16 on)) :=
  (wordIf_of_fits (by simp [hi, hon]) _).trans
    (congrArg Except.ok (ofNat_fields (op := 4) hi (by omega)))

theorem toWord_clrall : AsmLine.toWord .clrall = .ok (packWord 0x5 0 0) :=
  (wordIf_of_fits rfl _).trans (congrArg Except.ok (by decide))

theorem toWord_word {v : Nat} (hv : v ≤ 0xFFFFFFFF) :
    AsmLine.toWord (.word v) = .ok (BitVec.ofNat 32 v) := wordIf_of_fits (by simpa) _

theorem toNat_ofNat_word {v : Nat} (hv : v ≤ 0xFFFFFFFF) : (BitVec.ofNat 32 v).toNat = v := by
  rw [BitVec.toNat_ofNat]
  omega

/-! ### Lines in their context -/

theorem fitsContext_eq_false_iff (owed : BitVec 16) (l : AsmLine) :
    l.fitsContext owed = false ↔ (∃ d, l = .nib d) ∧ owed.toNat = 0 := by
  cases l <;> simp [AsmLine.fitsContext]

section
variable {owed : BitVec 16} {l : AsmLine}

theorem assembleFrom_of_unfit (h : l.fitsContext owed = false) (ls : List AsmLine) :
    assembleFrom owed (l :: ls) = .error .nibOutsideRun := by
  simp [assembleFrom, h]

theorem assembleFrom_of_error (h : l.fitsContext owed = true) {e : AsmReject}
    (he : l.toWord = .error e) (ls : List AsmLine) : assembleFrom owed (l :: ls) = .error e := by
  simp [assembleFrom, h, he]

theorem assembleFrom_cons (h : l.fitsContext owed = true) {w : Word} (hw : l.toWord = .ok w)
    {ls : List AsmLine} {ws : List Word} (hws : assembleFrom (owedAfter owed w) ls = .ok ws) :
    assembleFrom owed (l :: ls) = .ok (w :: ws) := by
  simp [assembleFrom, h, hw, hws]

end

/-- Settles O57: each line that fits is the word its instruction encodes to, and a line is assembled before those after it. -/
theorem assembledLinesDecode : Obligations.AssembledLinesDecode := by
  refine ⟨fun c => ⟨fun hc => ?_, fun hc => ?_⟩,
    fun a d => ⟨fun ⟨ha, hd⟩ => ?_, fun had => ?_⟩,
    fun n => ⟨fun hn => ?_, fun hn => ?_⟩,
    fun d => ⟨fun hd => ?_, fun hd => ?_⟩,
    fun i on => ⟨fun ⟨hi, hon⟩ => ?_, fun hion => ?_⟩,
    ⟨_, toWord_clrall, decodeRequest_of_encode rfl nofun⟩,
    fun v => ⟨fun hv => ?_, fun hv => ?_⟩,
    fun owed l ls => ⟨fitsContext_eq_false_iff owed l, fun h => assembleFrom_of_unfit h ls,
      fun h => ⟨fun e he => assembleFrom_of_error h he ls, fun w hw => ⟨?_, fun ws hws => ?_⟩⟩⟩⟩
  · exact ⟨_, toWord_cmd hc, decodeRequest_of_encode rfl nofun⟩
  · exact wordIf_of_unfit (by simpa) _
  · exact ⟨_, toWord_wrcell ha hd, decodeRequest_of_encode rfl nofun⟩
  · exact wordIf_of_unfit (by simp; omega) _
  · exact ⟨_, toWord_wrrun hn, decodeRequest_of_encode rfl nofun⟩
  · exact wordIf_of_unfit (by simpa) _
  · exact ⟨_, toWord_nib hd, toNat_ofNat_word hd, fun owed howed => classify_inRun howed _⟩
  · exact wordIf_of_unfit (by simpa) _
  · exact ⟨_, toWord_setseg hi hon, decodeRequest_of_encode rfl nofun⟩
  · exact wordIf_of_unfit (by simp; omega) _
  · exact ⟨_, toWord_word hv, toNat_ofNat_word hv⟩
  · exact wordIf_of_unfit (by simpa) _
  · exact assembleFrom_cons h hw rfl
  · exact assembleFrom_cons h hw hws

/-! ### The stream of a program -/

theorem owedAfter_inRun {owed : BitVec 16} (h : 0 < owed.toNat) (w : Word) :
    owedAfter owed w = owed - 1 := by
  rw [owedAfter, classify_inRun h]

/-- Outside a run only WRRUN makes words owed (R84). -/
theorem owedAfter_outsideRun (w : Word) :
    owedAfter 0 w = if opField w = 0x3 then dField w else 0 := by
  have h := classified 0 w
  unfold owedAfter
  generalize classify 0 w = i at h
  cases h with
  | nib hr => simp at hr
  | reserved _ hop hi =>
    obtain ⟨a, d, hi⟩ := hi
    have hne : opField w ≠ 0x3 := by
      intro h
      simp [ReservedOp, h] at hop
    rw [if_neg hne]
    rcases hi with rfl | rfl | rfl | rfl | rfl | rfl | rfl | rfl | rfl | rfl | rfl <;> rfl
  | cmd _ hop | wrcell _ hop | wrrun _ hop | setseg _ hop | clrall _ hop => simp [hop]

/-- The lines are assembled to words that are read as these instructions, `owed` data words being owed before them (R84, R93). -/
def AssemblesTo (owed : BitVec 16) (ls : List AsmLine) (is : List Instr) : Prop :=
  ∃ ws, assembleFrom owed ls = .ok ws ∧ decodeStream owed ws = is

theorem AssemblesTo.nil (owed : BitVec 16) : AssemblesTo owed [] [] := ⟨[], rfl, rfl⟩

theorem AssemblesTo.cons {owed : BitVec 16} {l : AsmLine} {w : Word} {i : Instr}
    {ls : List AsmLine} {is : List Instr} (hfits : l.fitsContext owed = true)
    (hw : l.toWord = .ok w) (hi : classify owed w = i)
    (hrest : AssemblesTo (owedAfter owed w) ls is) : AssemblesTo owed (l :: ls) (i :: is) := by
  obtain ⟨ws, hassemble, rfl⟩ := hrest
  exact ⟨w :: ws, assembleFrom_cons hfits hw hassemble, by rw [decodeStream, hi]⟩

/-- A line of a request that opens no run is read outside a run, and so are the lines after it (R83, R84). -/
theorem AssemblesTo.cons_request {l : AsmLine} {i : Instr} {op : BitVec 4} {a : BitVec 12}
    {d : BitVec 16} {ls : List AsmLine} {is : List Instr} (hfits : l.fitsContext 0 = true)
    (hw : l.toWord = .ok (packWord op a d)) (hop : op ≠ 0x3)
    (hi : decodeRequest (packWord op a d) = i) (hrest : AssemblesTo 0 ls is) :
    AssemblesTo 0 (l :: ls) (i :: is) := by
  refine .cons hfits hw ((classify_outsideRun rfl _).trans hi) ?_
  rwa [owedAfter_outsideRun, opField_packWord, if_neg hop]

/-- A command byte stands in the low 8 bits of A (R82, R97). -/
theorem AssemblesTo.cons_cmd (c : BitVec 8) {ls : List AsmLine} {is : List Instr}
    (hrest : AssemblesTo 0 ls is) :
    AssemblesTo 0 (.cmd c.toNat :: ls) (.cmd (c.setWidth 12) 0 :: is) := by
  rw [← BitVec.ofNat_toNat]
  have hfits : c.toNat ≤ 0xFFF := by omega
  exact .cons_request rfl (toWord_cmd hfits) (by decide) (decodeRequest_of_encode rfl nofun) hrest

theorem assemblesTo_clrall : AssemblesTo 0 [.clrall] [.clrall 0 0] :=
  .cons_request rfl toWord_clrall (by decide) (decodeRequest_of_encode rfl nofun) (.nil 0)

theorem assemblesTo_setsegs {on : Nat} (hon : on ≤ 1) {is : List Nat} (his : ∀ i ∈ is, i ≤ 0xFFF) :
    AssemblesTo 0 (is.map fun i => .setseg i on)
      (is.map fun i => .setseg (BitVec.ofNat 12 i) (BitVec.ofNat 16 on)) := by
  induction is with
  | nil => exact .nil 0
  | cons i is ih =>
    obtain ⟨hi, hrest⟩ := List.forall_mem_cons.mp his
    exact .cons_request rfl (toWord_setseg hi hon) (by decide) (decodeRequest_of_encode rfl nofun)
      (ih hrest)

/-- As many NIB lines as words are owed are the data words of the run (R84, R93). -/
theorem assemblesTo_nibs {ds : List Nat} (hlen : ds.length ≤ 0xFFFF)
    (hds : ∀ d ∈ ds, d ≤ 0xFFFFFFFF) :
    AssemblesTo (BitVec.ofNat 16 ds.length) (ds.map .nib)
      (ds.map fun d => .nib (BitVec.ofNat 32 d)) := by
  induction ds with
  | nil => exact .nil 0
  | cons d ds ih =>
    obtain ⟨hd, hrest⟩ := List.forall_mem_cons.mp hds
    rw [List.length_cons] at hlen
    have howed : 0 < (BitVec.ofNat 16 (d :: ds).length).toNat := by
      rw [BitVec.toNat_ofNat, List.length_cons]; omega
    have hleft : owedAfter (BitVec.ofNat 16 (d :: ds).length) (BitVec.ofNat 32 d) =
        BitVec.ofNat 16 ds.length := by
      rw [owedAfter_inRun howed, List.length_cons, BitVec.ofNat_add]
      exact BitVec.add_sub_cancel _ _
    refine .cons (decide_eq_true howed) (toWord_nib hd) (classify_inRun howed _) ?_
    rw [hleft]
    exact ih (by omega) hrest

theorem assemblesTo_wrraw {ds : List Nat} (hlen : ds.length ≤ 0xFFFF)
    (hds : ∀ d ∈ ds, d ≤ 0xFFFFFFFF) :
    AssemblesTo 0 (.wrrun ds.length :: ds.map .nib)
      (.wrrun 0 (BitVec.ofNat 16 ds.length) :: ds.map fun d => .nib (BitVec.ofNat 32 d)) := by
  have hdecode : decodeRequest (packWord 0x3 0 (BitVec.ofNat 16 ds.length)) =
      .wrrun 0 (BitVec.ofNat 16 ds.length) := decodeRequest_of_encode rfl nofun
  refine .cons rfl (toWord_wrrun hlen) ((classify_outsideRun rfl _).trans hdecode) ?_
  rw [owedAfter_outsideRun, opField_packWord, if_pos rfl, dField_packWord]
  exact assemblesTo_nibs hlen hds

/-- Bring-up sends its four command bytes and blanks every cell (R97). -/
theorem assemblesTo_init : AssemblesTo 0 (AsmLine.expand .init)
    [.cmd ((Config.initCmds 0).setWidth 12) 0, .cmd ((Config.initCmds 1).setWidth 12) 0,
      .cmd ((Config.initCmds 2).setWidth 12) 0, .cmd ((Config.initCmds 3).setWidth 12) 0,
      .clrall 0 0] :=
  .cons_cmd _ <| .cons_cmd _ <| .cons_cmd _ <| .cons_cmd _ assemblesTo_clrall

theorem assemble_singleton (l : AsmLine) : assemble [l] = assembleFrom 0 l.expand := by
  rw [assemble, List.flatMap_singleton]

/-- Settles O58: the expansion of each pseudo-operation is read back line by line. -/
theorem pseudoOperationsAreTheirRequests : Obligations.PseudoOperationsAreTheirRequests := by
  refine ⟨fun ds hlen hds => ?_, fun on is hon his => ?_, ?_⟩ <;> rw [assemble_singleton]
  · exact assemblesTo_wrraw hlen hds
  · exact assemblesTo_setsegs hon his
  · exact assemblesTo_init

end Sys2Proof.Machine

/-! The Frame Encoder (R112-R115): the frames requests append, and how the block step works them off on the lines (R110, R117). -/

namespace Sys2Proof.Machine

/-! ### The head event -/

theorem perform_set (s : State) (l : Line) (b : Level) (rest : List WireEvent) :
    s.perform (.set l b) rest = (s.setLine l b).retire (.set l b) rest := rfl

/-- On its last cycle a `Hold` leaves `pend` (R34, R110). -/
theorem perform_hold_last {s : State} (h : s.holdCnt + 1 = Config.holdCycles)
    (rest : List WireEvent) :
    s.perform .hold rest = { s.retire .hold rest with holdCnt := 0 } := if_pos h

/-- Before its last cycle a `Hold` only counts (R34, R110). -/
theorem perform_hold_within {s : State} (h : s.holdCnt + 1 ≠ Config.holdCycles)
    (rest : List WireEvent) :
    s.perform .hold rest = { s with holdCnt := s.holdCnt + 1 } := if_neg h

/-- A cycle without acceptance is the block step, but for startup and the host's script (R110, R201). -/
theorem runCycle_eq (s : State) : ∃ hs, s.runCycle = { s.blockStep with
    startupCnt := s.blockStep.startupStep.startupCnt
    oe := s.blockStep.startupStep.oe
    started := s.blockStep.startupStep.started
    host := hs } := by
  obtain ⟨hs, hwait⟩ := hostWait_eq s.blockStep.startupStep
  refine ⟨hs, ?_⟩
  rw [State.runCycle, hwait, startupStep_eq]

/-- While the lines are driven a cycle without reset is spent on the head event. Startup and the host's script are all else it touches, and startup no more once it is over (R31, R110). -/
theorem step_of_head {s : State} {e : WireEvent} {rest : List WireEvent} (hr : s.rstN = true)
    (hoe : s.oe = true) (hpend : s.pend = e :: rest) :
    ∃ cnt started hs, step s = .next { s.perform e rest with
      startupCnt := cnt, oe := true, started := started, host := hs } ∧
      (s.started = true → started = true ∧ cnt = s.startupCnt) := by
  have hblock : s.blockStep = s.perform e rest := by simp [State.blockStep, hoe, hpend]
  obtain ⟨hs, hcycle⟩ := runCycle_eq s
  have hdriven : s.blockStep.startupStep.oe = true := by
    simpa [hcycle] using (runCycle_started s).2 hoe
  refine ⟨s.blockStep.startupStep.startupCnt, s.blockStep.startupStep.started, hs, ?_,
    fun hst => ?_⟩
  · rw [step_of_pending (by simp [hpend]) hr, hcycle, hdriven, hblock]
  · obtain ⟨_, _, _, _, hstarted, hcnt, _⟩ := blockStep_keeps s
    have hover : s.blockStep.startupStep = s.blockStep := if_pos (hstarted.trans hst)
    rw [hover]
    exact ⟨hstarted.trans hst, hcnt⟩

/-- Settles O7: the cycle performs the head event, a `Set` at once, a `Hold` by one more count. -/
theorem blockStepPerformsTheHeadEvent : Obligations.BlockStepPerformsTheHeadEvent := by
  intro s e rest hr hoe hpend
  obtain ⟨_, _, _, hstep, hover⟩ := step_of_head hr hoe hpend
  refine ⟨_, hstep, ?_⟩
  cases e with
  | set l b =>
    rw [perform_set]
    simp +contextual [hover]
  | hold =>
    by_cases hlast : s.holdCnt + 1 = Config.holdCycles
    · rw [perform_hold_last hlast]
      simp +contextual [hover, hlast]
    · rw [perform_hold_within hlast]
      simp +contextual [hover, hlast]

/-! ### The lines -/

/-- What a step without reset can do to the lines: leave them alone, or perform the `Set` at the head of `pend` (R25, R110). -/
theorem step_lines {s t : State} (hr : s.rstN = true) (h : step s = .next t) :
    (t.cs = s.cs ∧ t.stb = s.stb ∧ t.dat = s.dat) ∨
    ∃ l b rest, s.pend = .set l b :: rest ∧ t.cs = (s.setLine l b).cs ∧
      t.stb = (s.setLine l b).stb ∧ t.dat = (s.setLine l b).dat := by
  rcases step_cases s with ⟨hr', _⟩ | ⟨w, hs, _, _, _, _, e⟩ | ⟨_, _, e⟩
  · simp [hr] at hr'
  · obtain ⟨es, ht, -⟩ := exec_classify_appends (s := { s with host := hs }) (e.symm.trans h)
    rw [ht]
    exact .inl ⟨rfl, rfl, rfl⟩
  · cases e.symm.trans h
    obtain ⟨_, hcycle⟩ := runCycle_eq s
    rw [hcycle]
    rcases blockStep_cases s with ⟨_, e⟩ | ⟨l, b, rest, _, hpend, e⟩ | ⟨_, _, _, _, e⟩ |
      ⟨_, _, _, _, e⟩
    · rw [e]; exact .inl ⟨rfl, rfl, rfl⟩
    · rw [e]; exact .inr ⟨l, b, rest, hpend, rfl, rfl, rfl⟩
    · rw [e]; exact .inl ⟨rfl, rfl, rfl⟩
    · rw [e]; exact .inl ⟨rfl, rfl, rfl⟩

/-- What is pending is legal from the levels the lines have (R25, R117). -/
theorem State.Inv.pend_legal {s : State} (hs : s.Inv) : legalFrom s.cs s.stb s.pend = true := by
  obtain ⟨hcs, hstb, -⟩ := hs.lines
  have h := hs.legal
  rw [State.events, legalFrom_append, ← hcs, ← hstb, Bool.and_eq_true] at h
  exact h.2

/-- Settles O46: a line moves only by a pending `Set`, which is legal from the levels CS and STB have. -/
theorem linesChangeOnlyAsFramesAllow : Obligations.LinesChangeOnlyAsFramesAllow := by
  intro s t hs hr h
  rcases step_lines hr h with ⟨hcs, hstb, hdat⟩ | ⟨l, b, rest, hpend, hcs, hstb, hdat⟩
  · simp [hcs, hstb, hdat]
  · have hlegal := hs.pend_legal
    rw [hpend] at hlegal
    cases l with
    | cs =>
      obtain ⟨⟨_, hstrobe⟩, _⟩ : (b ≠ s.cs ∧ s.stb = true) ∧ _ := by
        simpa [legalFrom] using hlegal
      simp [hstb, hdat, hstrobe]
    | stb =>
      obtain ⟨⟨hselect, _⟩, _⟩ : (s.cs = false ∧ b ≠ s.stb) ∧ _ := by
        simpa [legalFrom] using hlegal
      simp [hcs, hdat, hselect]
    | dat =>
      obtain ⟨⟨hselect, hstrobe⟩, _⟩ : (s.cs = false ∧ s.stb = false) ∧ _ := by
        simpa [legalFrom] using hlegal
      simp [hcs, hstb, hselect, hstrobe]

/-! ### The frames of requests -/

theorem cmdOperand_toNat (a : BitVec 12) : (cmdOperand a).toNat = a.toNat % 256 :=
  maskTo_toNat 8 a

theorem dataOperand_toNat (d : BitVec 16) : (dataOperand d).toNat = d.toNat % 16 :=
  maskTo_toNat 4 d

theorem nibOperand_toNat (w : Word) : (nibOperand w).toNat = w.toNat % 16 := maskTo_toNat 4 w

/-- Settles O10: the frame carries the masked command byte. -/
theorem cmdSendsACommandFrame : Obligations.CmdSendsACommandFrame := by
  intro a d s
  rw [← cmdOperand_toNat]
  rfl

/-- Settles O11: the frame carries the masked address and data. -/
theorem wrcellSendsAWriteFrame : Obligations.WrcellSendsAWriteFrame := by
  intro a d s
  rw [← addrOperand_toNat, ← dataOperand_toNat]
  rfl

/-- Settles O12: the two cases of `exec_wrrun`. -/
theorem wrrunOpensARunFrame : Obligations.WrrunOpensARunFrame := by
  intro a d s
  refine ⟨fun hzero => ?_, fun hne => ?_⟩
  · rw [exec_wrrun, if_pos hzero, if_pos hzero, List.append_assoc]
    rfl
  · rw [exec_wrrun, if_neg hne, if_neg hne, List.append_nil]
    rfl

/-- Settles O13: a data word within a run, its low nibble and the count written as numbers. -/
theorem nibSendsOneNibble : Obligations.NibSendsOneNibble := by
  intro w s hr
  have howed : s.runLeft - 1 = BitVec.ofNat 16 (s.runLeft.toNat - 1) := by bv_omega
  rw [exec_nib_inRun hr, howed, nibBits, nibOperand_toNat, List.append_assoc]

theorem addrOperand_eq_ofNat (a : BitVec 12) : addrOperand a = BitVec.ofNat 6 a.toNat :=
  BitVec.eq_of_toNat_eq (by simp [addrOperand])

theorem sh_getElem? (s : State) {c : Nat} (h : c < Config.numCells) :
    s.sh[c]? = some (s.readCell c) := by
  rw [State.readCell, Vector.getElem?_eq_getElem h, Option.getD_some]

/-- Settles O20: each request and its wire row append the same frame; SETSEG's carries the new value of its cell. -/
theorem requestsSendTheFramesOfTheTable : Obligations.RequestsSendTheFramesOfTheTable := by
  intro a d s
  rw [← cmdOperand_eq_ofNat, ← addrOperand_eq_ofNat, ← dataOperand_eq_ofNat]
  refine ⟨rfl, rfl, rfl, fun hvalid => ?_⟩
  have hcell : cellOf a.toNat < Config.numCells := (cellOf_lt_iff _).mpr hvalid
  exact ⟨_, _, exec_setseg_of_valid hvalid d s, sh_getElem? (s.updateSegment _ _) hcell⟩

end Sys2Proof.Machine

/-! The segment buffer over sequences of instructions (R141-R145): each bit of the shadow follows what was last said of its segment. -/

namespace Sys2Proof.Machine

/-! ### CLRALL -/

/-- The write frame of 0 to a cell that exists (R88, R141). -/
theorem wrBits_zero {c : Nat} (h : c < Config.numCells) : wrBits (BitVec.ofNat 6 c) 0 =
    [true, false, true] ++ bits c 6 ++ [false, false, false, false] := by
  rw [wrBits, toNat_cellAddr h]
  rfl

/-- Settles O17: the cleared cells read 0, and each frame of `clearFrames` is the write frame of 0 to its cell. -/
theorem clrallBlanksEveryCell : Obligations.ClrallBlanksEveryCell := by
  intro a d s
  refine ⟨_, rfl, fun c _ => clearCells_readCell s c, ?_, rfl⟩
  refine congrArg (s.pend ++ ·) (List.flatMap_congr fun c hc => ?_)
  rw [wrBits_zero (List.mem_range.mp hc)]

/-! ### Setting and clearing one segment -/

/-- Of two updates of one bit the second decides (R53). -/
theorem updateBit_updateBit (v : Nibble) {b : Nat} (hb : b < 4) (on on' : Bool) :
    updateBit (updateBit v b on) b on' = updateBit v b on' := by
  refine BitVec.eq_of_getLsbD_eq fun k hk => ?_
  rw [updateBit_getLsbD _ _ hb hk, updateBit_getLsbD _ _ hb hk, updateBit_getLsbD _ _ hb hk]
  split <;> rfl

/-- Making a bit what it is changes nothing (R53). -/
theorem updateBit_of_getLsbD {v : Nibble} {b : Nat} {on : Bool} (hb : b < 4)
    (h : v.getLsbD b = on) : updateBit v b on = v := by
  refine BitVec.eq_of_getLsbD_eq fun k hk => ?_
  rw [updateBit_getLsbD _ _ hb hk]
  split
  next hkb => rw [hkb, h]
  next => rfl

/-- Settles O48: the second update clears the bit the first has set, and neither touches another cell. -/
theorem setThenClearLeavesTheBitCleared : Obligations.SetThenClearLeavesTheBitCleared := by
  intro i d0 d1 s hvalid hset hclear
  have hcell : cellOf i.toNat < Config.numCells := (cellOf_lt_iff _).mpr hvalid
  have hvalue : ((s.updateSegment i.toNat true).updateSegment i.toNat false).readCell
      (cellOf i.toNat) = updateBit (s.readCell (cellOf i.toNat)) (bitOf i.toNat) false := by
    rw [updateSegment_readCell_self _ hcell, updateSegment_readCell_self _ hcell,
      updateBit_updateBit _ (bitOf_lt _)]
  refine ⟨(s.updateSegment i.toNat true).updateSegment i.toNat false, ?_, hvalue,
    fun hbit => hvalue.trans (updateBit_of_getLsbD (bitOf_lt _) hbit), fun c _ hc => ?_⟩
  · rw [execAll_cons_of_next (exec_setseg_of_valid hvalid d1 s), hset,
      execAll_cons_of_next (exec_setseg_of_valid hvalid d0 _), hclear, execAll]
  · rw [updateSegment_readCell_ne _ hc, updateSegment_readCell_ne _ hc]

/-! ### What was last said of a segment -/

/-- What a sequence says of a segment is what its first instruction says, then the others (R145). -/
theorem lastOn_cons (seg : Nat) (on : Bool) (i : Instr) (is : List Instr) :
    lastOn seg on (i :: is) = lastOn seg (lastOn seg on [i]) is := by
  cases i <;> rfl

/-- Only SETSEG and CLRALL say anything of a segment (R145). -/
theorem lastOn_singleton_of_other {i : Instr} (h : ¬ ∃ a d, i = .setseg a d ∨ i = .clrall a d)
    (seg : Nat) (on : Bool) : lastOn seg on [i] = on := by
  cases i with
  | setseg a d => exact absurd ⟨a, d, .inl rfl⟩ h
  | clrall a d => exact absurd ⟨a, d, .inr rfl⟩ h
  | _ => rfl

/-- An instruction makes each bit of the shadow what it says of the bit's segment (R53, R140, R141, R145). -/
theorem exec_readCell_getLsbD {i : Instr} {s t : State} (h : exec i s = .next t) {c b : Nat}
    (hc : c < 40) (hb : b < 4) : (t.readCell c).getLsbD b =
      lastOn (4 * c + b) ((s.readCell c).getLsbD b) [i] := by
  by_cases hi : ∃ a d, i = .setseg a d ∨ i = .clrall a d
  · obtain ⟨a, d, rfl | rfl⟩ := hi
    · have hseg : a.toNat = 4 * c + b ↔ c = cellOf a.toNat ∧ b = bitOf a.toNat := by
        rw [cellOf, bitOf]; omega
      by_cases hvalid : a.toNat < 160
      · cases (exec_setseg_of_valid hvalid d s).symm.trans h
        rw [updateSegment_getLsbD s ((cellOf_lt_iff _).mpr hvalid) _ c hb]
        simp [lastOn, hseg]
      · cases (exec_setseg_of_invalid (by omega) d s).symm.trans h
        have hother : a.toNat ≠ 4 * c + b := by omega
        simp [lastOn, hother]
    · cases h
      simp [lastOn]
  · obtain ⟨_, _, hwrites, _⟩ := instructionsTouchOnlyTheirOwnState _ _ _ h
    have hsh : t.sh = s.sh := not_imp_comm.mp hwrites hi
    rw [lastOn_singleton_of_other hi, State.readCell, hsh, State.readCell]

/-- Over a sequence each bit of the shadow becomes what was last said of its segment, by induction on the sequence (R145). -/
theorem execAll_readCell_getLsbD {is : List Instr} {s t : State} (h : execAll is s = some t)
    {c b : Nat} (hc : c < 40) (hb : b < 4) : (t.readCell c).getLsbD b =
      lastOn (4 * c + b) ((s.readCell c).getLsbD b) is := by
  induction is generalizing s with
  | nil => cases h; rfl
  | cons i is ih =>
    rw [execAll] at h
    split at h
    next u hu => rw [ih h, lastOn_cons, exec_readCell_getLsbD hu hc hb]
    next => cases h
    next => cases h

/-- Settles O49: a blank shadow has every bit 0, which is what `lastOn` starts from. -/
theorem shadowIsTheUnionOfWhatIsOn : Obligations.ShadowIsTheUnionOfWhatIsOn := by
  intro is s t hblank hexec c b hc hb
  have hdark : (s.readCell c).getLsbD b = false := by simp [hblank c hc]
  rw [execAll_readCell_getLsbD hexec hc hb, hdark]

end Sys2Proof.Machine

/-! No step stops the machine (R170, R174), and a block with nothing to send waits unchanged (R180). -/

namespace Sys2Proof.Machine

/-- Settles O40: an accepted word has an instruction that answers, and a reset or a cycle without acceptance always passes. -/
theorem everyStepAnswersANextState : Obligations.EveryStepAnswersANextState := by
  intro s
  rcases step_cases s with ⟨_, e⟩ | ⟨w, h, _, _, _, _, e⟩ | ⟨_, _, e⟩
  · exact ⟨_, e⟩
  · obtain ⟨t, ht⟩ := exec_classify_next { s with host := h } w
    exact ⟨t, e.trans ht⟩
  · exact ⟨_, e⟩

/-! ### A block with nothing to send -/

theorem blockStep_of_nothing_pending {s : State} (h : s.pend = []) : s.blockStep = s := by
  rcases blockStep_cases s with ⟨_, e⟩ | ⟨_, _, _, _, hp, _⟩ | ⟨_, _, hp, _⟩ | ⟨_, _, hp, _⟩
  · exact e
  all_goals cases h.symm.trans hp

/-- A cycle without reset in which no word is offered is an idle entry of the host's script, or lies past its end (R37). -/
theorem hostWait_of_unoffered {s : State} (hr : s.rstN = true) (ho : s.offered = none) :
    s.hostWait = { s with host := s.host.tail } := by
  cases hhost : s.host with
  | nil => rw [hostWait_of_nil hhost, List.tail_nil, ← hhost]
  | cons a h =>
    cases a with
    | idle => simp [State.hostWait, State.hostNext, hhost]
    | offer w => simp [State.offered, hhost] at ho
    | reset => simp [State.rstN, hhost] at hr

/-- With nothing pending and no word offered, a cycle changes the host's script only, be a run open or not (R110, R180). -/
theorem step_of_unoffered {s : State} (hpend : s.pend = []) (hst : s.started = true)
    (hr : s.rstN = true) (ho : s.offered = none) :
    step s = .next { s with host := s.host.tail } := by
  have hedge : s.edge = .run := by simp [State.edge, hr, ho]
  have hover : s.startupStep = s := if_pos hst
  rw [step_of_run hedge, State.runCycle, blockStep_of_nothing_pending hpend, hover,
    hostWait_of_unoffered hr ho]

theorem State.hostDone.unoffered {s : State} (h : s.hostDone) :
    s.rstN = true ∧ s.offered = none := by
  cases hhost : s.host with
  | nil => simp [State.rstN, State.offered, hhost]
  | cons a as =>
    have ha : a = .idle := h a (by simp [hhost])
    simp [State.rstN, State.offered, hhost, ha]

/-- With nothing pending and a host that offers no more words, only the host's script goes on, by induction on the cycles (R180, R214). -/
theorem runFor_of_hostDone {s : State} (hpend : s.pend = []) (hst : s.started = true)
    (hdone : s.hostDone) (k : Nat) :
    runFor k s = .next { s with host := s.host.drop k } := by
  induction k generalizing s with
  | zero => rfl
  | succ k ih =>
    obtain ⟨hr, ho⟩ := hdone.unoffered
    have htail : State.hostDone { s with host := s.host.tail } :=
      fun a ha => hdone a (List.mem_of_mem_tail ha)
    rw [runFor_succ_of_next (step_of_unoffered hpend hst hr ho),
      ih (s := { s with host := s.host.tail }) hpend hst htail, List.drop_tail]

/-- Settles O60: idle, the block has nothing pending and its startup is over. -/
theorem idleBlockKeepsItsState : Obligations.IdleBlockKeepsItsState := by
  rintro s ⟨hpend, _, hst⟩
  exact ⟨step_of_unoffered hpend hst, fun hdone k => ⟨_, runFor_of_hostDone hpend hst hdone k⟩⟩

end Sys2Proof.Machine

/-! What each operation costs in events and cycles (R213), the open run that waits for ever (R209, R214), and the ports while reset is held (R200, R203). -/

namespace Sys2Proof.Machine

/-! ### Costs -/

theorem frame_length (bs : List Level) : (frame bs).length = 5 * bs.length + 2 :=
  (frameHasFiveEventsPerBit bs).1

theorem wrFrame_costs (a : BitVec 6) (d : Nibble) : (frame (wrBits a d)).length = 67 ∧
    cyclesOf (frame (wrBits a d)) = 41 + 26 * Config.holdCycles :=
  ⟨by rw [frame_length, wrBits_length], cyclesOf_wrFrame a d⟩

/-- Where nothing was pending, only what an operation emits is pending after it (R32). -/
theorem pend_of_emit {s t : State} {es : List WireEvent} (hpend : s.pend = [])
    (h : (Host.Outcome.next (s.emit es) : Host.Outcome State Fault Refusal) = .next t) :
    t.pend = es := by
  cases h
  rw [emit_pend, hpend, List.nil_append]

/-- Frames of equally many bits cost the same, one after the other (R59, R213). -/
theorem frames_costs {fs : List (List Level)} {n : Nat} (h : ∀ bs ∈ fs, bs.length = n) :
    (fs.flatMap frame).length = fs.length * (5 * n + 2) ∧
      cyclesOf (fs.flatMap frame) = fs.length * (2 + n * (3 + 2 * Config.holdCycles)) := by
  induction fs with
  | nil => simp [cyclesOf]
  | cons bs fs ih =>
    obtain ⟨hbs, hfs⟩ := List.forall_mem_cons.mp h
    obtain ⟨hevents, hcycles⟩ := ih hfs
    rw [List.flatMap_cons, List.length_append, cyclesOf_append, frame_length, cyclesOf_frame,
      hbs, hevents, hcycles, List.length_cons]
    exact ⟨by ring, by ring⟩

/-- CLRALL sends 40 write frames (R141, R213). -/
theorem clearFrames_costs : clearFrames.length = 2680 ∧
    cyclesOf clearFrames = 1640 + 1040 * Config.holdCycles := by
  have hbits : ∀ bs ∈ zeroFrames Config.numCells, bs.length = 13 := by simp [zeroFrames]
  have hcount : (zeroFrames Config.numCells).length = 40 := by simp [zeroFrames]
  obtain ⟨hevents, hcycles⟩ := frames_costs hbits
  rw [clearFrames_eq, hevents, hcycles, hcount]
  omega

/-- A run frame costs its header and its ends, and four bits for each nibble (R89, R213). -/
theorem frame_runBits_costs (ds : List Nibble) :
    (frame (runBits ds)).length = 47 + 20 * ds.length ∧
      cyclesOf (frame (runBits ds)) =
        29 + 18 * Config.holdCycles + ds.length * (12 + 8 * Config.holdCycles) := by
  rw [frame_length, cyclesOf_frame, runBits_length]
  exact ⟨by omega, by ring⟩

/-- Settles O33: what is pending after an operation are the frames it sends, the run with its data words being one run frame, and a frame costs by its bits. -/
theorem operationsHaveTheCostsOfTheTable : Obligations.OperationsHaveTheCostsOfTheTable := by
  intro a d ws s t hpend hrun
  refine ⟨fun h => ?_, fun h => ?_, fun h => ⟨fun hvalid => ?_, fun hinvalid => ?_⟩, fun h => ?_,
    fun hlen h => ?_⟩
  · rw [pend_of_emit hpend h]
    exact ⟨by rw [frame_length, cmdBits_length], cyclesOf_cmdFrame _⟩
  · rw [pend_of_emit hpend h]
    exact wrFrame_costs _ _
  · cases (exec_setseg_of_valid hvalid d s).symm.trans h
    rw [updateSegment_pend_segmentFrame, hpend, List.nil_append]
    exact wrFrame_costs _ _
  · cases (exec_setseg_of_invalid hinvalid d s).symm.trans h
    rw [hpend]
    exact ⟨rfl, rfl⟩
  · rw [pend_of_emit (s := s.clearCells) hpend h]
    exact clearFrames_costs
  · obtain ⟨u, hexec, hframe⟩ := runOfDataWordsIsOneRunFrame a ws s hlen hrun
    cases hexec.symm.trans h
    rw [pend_of_emit hpend hframe]
    simpa using frame_runBits_costs (ws.map (maskTo 4))

/-! ### The stuck open run -/

/-- Settles O47: the host's script goes on to its end, with idle cycles only, and words stay owed. -/
theorem openRunWithoutWordsWaitsForEver : Obligations.OpenRunWithoutWordsWaitsForEver := by
  rintro s k ⟨hdone, hpend, howed, hst⟩
  have hleft : ∀ a ∈ s.host.drop k, a = .idle := fun a ha => hdone a (List.mem_of_mem_drop ha)
  refine ⟨_, runFor_of_hostDone hpend hst hdone k, ⟨hleft, hpend, howed, hst⟩, ?_, rfl⟩
  rintro ⟨_, _, hclosed, _⟩
  exact howed hclosed

/-! ### The ports while reset is held -/

/-- Settles O2: the ports show the held state, which is the reset state but for the host's script. -/
theorem portsShowResetAtOnce : Obligations.PortsShowResetAtOnce := by
  intro s hr
  have hheld := held_of_inReset hr
  obtain ⟨hcs, hstb, hdat⟩ := (linePortsShowTheLineRegisters s).2 (.inl hr)
  refine ⟨?_, by simp [State.reqReady, hr], ?_, hcs, hstb, hdat, fun addr => ?_⟩
  · rw [State.statPort, hheld]
    exact reset_stat
  · rw [State.oePort, hheld]
    rfl
  · rw [State.shData, hheld]
    exact reset_readCell _

end Sys2Proof.Machine
